-- ==== Sys2Proof/Word.lean ====
section
/-! DEFINITION. The word and byte types, and the slice of the low bits of a word (00_scope.md R8). -/

namespace Sys2Proof

/-- A register-wide value. A hart with XLEN = 32 holds its values in the low 32 bits
(notes/assumptions/1.md). -/
abbrev Word := BitVec 64

/-- A byte of memory (10_state.md R31). -/
abbrev Byte := BitVec 8

/-- `v[n-1:0]`, zero-extended (00_scope.md R8). `lowBits 0 v` is the empty slice, zero. -/
def lowBits (n : Nat) (v : Word) : Word := BitVec.ofNat 64 (v.toNat % 2 ^ n)

end Sys2Proof
end

