-- ==== Sys2Proof/Config.lean ====
section
/-! DEFINITION. What an implementation fixes: the parameters of 00_scope.md R5 and R7 and of
92_eei_decisions.md, and the opaque constants that stand for what nothing in the spec fixes. -/

namespace Sys2Proof

/-- XLEN (00_scope.md R5, decision D1); SXLEN is the same number. -/
inductive XLen where
  | rv32
  | rv64
  deriving DecidableEq, Repr

/-- The number of bits XLEN stands for. -/
def XLen.bits : XLen → Nat
  | .rv32 => 32
  | .rv64 => 64

/-- The privilege modes of a hart (10_state.md R29). -/
inductive Priv where
  | U
  | S
  | M
  deriving DecidableEq, Repr

/-- The three accesses a translation serves (20_memory.md R76). -/
inductive Access where
  | load
  | store
  | execute
  deriving DecidableEq, Repr

/-- `satp` as the record of 10_state.md R24. `mode = 0` is Bare; the one other mode the model has is
the number its scheme gives (decision D17). -/
structure Satp where
  mode : Nat
  asid : Word
  root : Word
  deriving DecidableEq, Repr

/-- The translation scheme: the record of 00_scope.md R7. Functions over plain values; a state never
holds one, it names one by a `SchemeKind`. A PTE is the number that its PTESIZE bytes make, and PTESIZE
is any number. `modeNum` is the value of satp.MODE that selects the
scheme, and `implicitUpdate` is what an implicit write makes of a PTE (decision D16). -/
structure Scheme where
  levels : Nat
  pteSize : Nat
  asidMax : Nat
  modeNum : Nat
  span : Nat → Nat
  validVA : Word → Bool
  index : Nat → Word → Nat
  rootAddr : Satp → Nat
  nextTable : Nat → Nat
  vBit : Nat → Bool
  gBit : Nat → Bool
  isLeaf : Nat → Nat → Bool
  check : Nat → Access → Priv → Bool → Bool → Bool
  target : Nat → Nat → Word → Nat
  implicitUpdate : Nat → Access → Nat
  deriving Inhabited

/-- Which scheme the hart has: a standard one (00_scope.md R7, general knowledge G11), or one of
which nothing is known. -/
inductive SchemeKind where
  | sv32
  | sv39
  | sv48
  | sv57
  | other
  deriving DecidableEq, Repr

/-- What SFENCE.VMA does on a Bare-only implementation (00_scope.md R5, decision D7). -/
inductive BareOnlySfence where
  | trap
  | nop
  deriving DecidableEq, Repr

/-- Byte order of data and PTEs (20_memory.md R50, decision D14). -/
inductive Endian where
  | little
  | big
  deriving DecidableEq, Repr

/-- IALIGN (decision D20). -/
inductive IAlign where
  | bits16
  | bits32
  deriving DecidableEq, Repr

/-- When accesses are translated (20_memory.md R76, decision D22): the standard rule, or a rule of
which nothing is known. -/
inductive ActiveRule where
  | standard
  | other
  deriving DecidableEq, Repr

/-- The parameter `ImplicitWrite` (00_scope.md R5, decision D16). -/
inductive ImplicitWrites where
  | absent
  | updatePte
  deriving DecidableEq, Repr

/-- The parameters of the machine as plain data, so that a claim about every state is a claim for
every value of them (notes/assumptions/2.md). `paBits` is the width of `PAddr` (10_state.md R31). -/
structure Params where
  xlen : XLen
  scheme : SchemeKind
  asidlen : Nat
  satpModeWritable : Bool
  bareOnlySfence : BareOnlySfence
  hasUserMode : Bool
  hasTVM : Bool
  dataEndian : Endian
  ialign : IAlign
  activeRule : ActiveRule
  implicitWrites : ImplicitWrites
  paBits : Nat
  resetVector : Word
  deriving DecidableEq, Repr

/-- DESIGN CHOICE: the parameters of `State.reset`, the instance SV39X of 95_test_vectors.md
section 0 (notes/assumptions/2.md). -/
def Params.default : Params where
  xlen := .rv64
  scheme := .sv39
  asidlen := 16
  satpModeWritable := true
  bareOnlySfence := .trap
  hasUserMode := true
  hasTVM := true
  dataEndian := .little
  ialign := .bits32
  activeRule := .standard
  implicitWrites := .absent
  paBits := 56
  resetVector := 0x80000000#64

/-- FREE VALUE: a scheme of which nothing is known (00_scope.md R7; notes/assumptions/15.md). -/
opaque Config.otherScheme : Scheme

/-- FREE VALUE: a `TranslationActive` of which nothing is known, from "satp.MODE is Bare" and the
privilege mode (decision D22; notes/assumptions/17.md). -/
opaque Config.otherActive : Bool → Priv → Bool

/-- FREE VALUE: the choice among the usable observations at the n-th use (20_memory.md R75;
notes/assumptions/16.md). -/
opaque Config.pick : Nat → Nat

/-- FREE VALUE: what an implicit read of a slot outside `PAddr` returns at a time, cut to a PTE's width;
the spec states no value there (10_state.md R31, R34; notes/assumptions/34.md). -/
opaque Config.absentPte : Nat → Nat → Nat

end Sys2Proof
end

