-- ==== Sys2Proof/Machine/Scheme.lean ====
section
/-! DEFINITION. The standard translation schemes as values of `Scheme` (00_scope.md R7, general
knowledge G11), and the scheme a parameter names. -/

namespace Sys2Proof.Machine

/-- The permission check of the standard schemes on a leaf PTE (PRESUMED, notes/assumptions/14.md):
R, W, X are bits 1, 2, 3, U bit 4, A bit 6, D bit 7; MXR makes executable pages readable and SUM
permits supervisor access to user pages (10_state.md R27). DESIGN CHOICE: an access in M-mode, which only
an unknown translation rule translates, is checked as one in S-mode (notes/assumptions/41.md). -/
def standardCheck (pte : Nat) (acc : Access) (priv : Priv) (sum mxr : Bool) : Bool :=
  let r := pte.testBit 1
  let w := pte.testBit 2
  let x := pte.testBit 3
  let u := pte.testBit 4
  let a := pte.testBit 6
  let d := pte.testBit 7
  let kind := match acc with
    | .load => r || (mxr && x)
    | .store => w && d
    | .execute => x
  let user := match priv with
    | .U => u
    | .S | .M => !u || (sum && acc != .execute)
  kind && user && a && (r || !w)

/-- PRESUMED: an implicit write sets the accessed bit and, for a store, the dirty bit
(decision D16, general knowledge G10). -/
def standardUpdate (pte : Nat) (acc : Access) : Nat :=
  match acc with
  | .store => pte ||| 0xC0
  | .load | .execute => pte ||| 0x40

/-- The physical address a leaf gives: the page-aligned base cut to the span, plus the offset
(95_test_vectors.md section 0). -/
def leafTarget (base span : Nat) (va : Word) : Nat := base - base % span + va.toNat % span

/-- `NextTable` and the base of a leaf for 8-byte PTEs: PPN is bits 53:10. -/
def ppnAddr64 (pte : Nat) : Nat := pte / 2 ^ 10 % 2 ^ 44 * 4096

/-- The same for 4-byte PTEs: PPN is bits 31:10. -/
def ppnAddr32 (pte : Nat) : Nat := pte / 2 ^ 10 % 2 ^ 22 * 4096

/-- A valid PTE is a leaf when its R or X bit is set (00_scope.md R7). DEDUCED: at level 0, the last, every
valid PTE ends the walk, since a walk always finds a terminal entry (20_memory.md R75); one with neither
bit set lets no access through (`standardCheck`; notes/assumptions/25.md). -/
def standardLeaf (pte level : Nat) : Bool := pte.testBit 1 || pte.testBit 3 || decide (level = 0)

/-- Sv32 (00_scope.md R7). -/
def sv32 : Scheme where
  levels := 2
  pteSize := 4
  asidMax := 9
  modeNum := 1
  span := fun l => 2 ^ (12 + 10 * l)
  validVA := fun va => decide (va.toNat < 2 ^ 32)
  index := fun l va => va.toNat / 2 ^ (12 + 10 * l) % 1024
  rootAddr := fun s => s.root.toNat % 2 ^ 22 * 4096
  nextTable := ppnAddr32
  vBit := fun pte => pte.testBit 0
  gBit := fun pte => pte.testBit 5
  isLeaf := standardLeaf
  check := standardCheck
  target := fun pte l va => leafTarget (ppnAddr32 pte) (2 ^ (12 + 10 * l)) va
  implicitUpdate := standardUpdate

/-- The 64-bit schemes, by the number of levels and the value of satp.MODE: three levels and MODE 8
give Sv39 as 00_scope.md R7 and 95_test_vectors.md section 0 describe it. A virtual address is valid
when its bits 63 down to `11 + 9 * levels` are all equal. -/
def sv64 (levels modeNum : Nat) : Scheme where
  levels := levels
  pteSize := 8
  asidMax := 16
  modeNum := modeNum
  span := fun l => 2 ^ (12 + 9 * l)
  validVA := fun va =>
    decide (va.toNat / 2 ^ (11 + 9 * levels) = 0) ||
      decide (va.toNat / 2 ^ (11 + 9 * levels) = 2 ^ (64 - (11 + 9 * levels)) - 1)
  index := fun l va => va.toNat / 2 ^ (12 + 9 * l) % 512
  rootAddr := fun s => s.root.toNat % 2 ^ 44 * 4096
  nextTable := ppnAddr64
  vBit := fun pte => pte.testBit 0
  gBit := fun pte => pte.testBit 5
  isLeaf := standardLeaf
  check := standardCheck
  target := fun pte l va => leafTarget (ppnAddr64 pte) (2 ^ (12 + 9 * l)) va
  implicitUpdate := standardUpdate

/-- The scheme a parameter names. Sv48 and Sv57 are PRESUMED (notes/assumptions/14.md). -/
def schemeOf : SchemeKind → Scheme
  | .sv32 => sv32
  | .sv39 => sv64 3 8
  | .sv48 => sv64 4 9
  | .sv57 => sv64 5 10
  | .other => Config.otherScheme

/-- The scheme of the machine (00_scope.md R5, field `Scheme`). -/
def paramScheme (p : Params) : Scheme := schemeOf p.scheme

end Sys2Proof.Machine
end

