-- ==== Sys2Proof/Syntax.lean ====
section
/-! DEFINITION. The instruction as a program writes it, one constructor per row of
spec/opcode_table.json, and the names under which a decoder rejects a word. -/

namespace Sys2Proof

/-- A register specifier: a 5-bit field of the instruction word (00_scope.md R9). -/
abbrev Reg := BitVec 5

/-- The instruction set in scope (40_sfence_vma.md R130): one member. -/
inductive Instr where
  /-- `sfence.vma rs1, rs2` -/
  | sfenceVma (rs1 rs2 : Reg)
  deriving DecidableEq, Repr

/-- Why a word is not decoded (30_encoding.md R110, R114, R116, R119). None of these is an
instruction of opcode_table.json. -/
inductive Reject where
  /-- fewer than four bytes were given -/
  | truncated
  /-- bits 1:0 are not 11: a 16-bit instruction stands here (R110) -/
  | compressed
  /-- the function codes of SFENCE.VMA with rd not zero: reserved (R114) -/
  | reservedRd
  /-- SYSTEM with funct3 not 000: CSR instructions and others -/
  | systemFunct3
  | ecall
  | ebreak
  | sret
  | wfi
  | mret
  /-- sinval.vma, sfence.w.inval, sfence.inval.ir (decision D19) -/
  | svinval
  /-- hfence.vvma, hfence.gvma (decision D19) -/
  | hypervisor
  /-- any other word: an instruction out of scope (00_scope.md R4), or none -/
  | outOfScope
  deriving DecidableEq, Repr

end Sys2Proof
end

