-- ==== Sys2Proof/WellFormed.lean ====
section
/-! DEFINITION. What is well formed: an instruction, an instruction word field by field, the
parameters, and a translation scheme. -/

namespace Sys2Proof

/-- An instruction is well formed when each specifier names one of x0 to x31. The type of a specifier
says so already, and every one of the 1024 pairs is the instruction (30_encoding.md R115), so no term
of `Instr` fails this check. -/
def Instr.wellFormed : Instr → Bool
  | .sfenceVma rs1 rs2 => decide (rs1.toNat < 32) && decide (rs2.toNat < 32)

/-- bits 6:0 = 1110011, SYSTEM; its two low bits say the word is 32 bits long (30_encoding.md R110, R111). -/
def opcodeOk (w : BitVec 32) : Bool := w.extractLsb' 0 7 == 0b1110011#7

/-- bits 11:7, rd, must be zero (R111, R114). -/
def rdOk (w : BitVec 32) : Bool := w.extractLsb' 7 5 == 0#5

/-- bits 14:12, funct3 = 000 (R111). -/
def funct3Ok (w : BitVec 32) : Bool := w.extractLsb' 12 3 == 0#3

/-- bits 31:25, funct7 = 0001001 (R111). -/
def funct7Ok (w : BitVec 32) : Bool := w.extractLsb' 25 7 == 0b0001001#7

/-- A word that is SFENCE.VMA, field by field (30_encoding.md R111). -/
def wordWellFormed (w : BitVec 32) : Bool := opcodeOk w && rdOk w && funct3Ok w && funct7Ok w

/-- `ASIDLEN <= ASIDMAX` (00_scope.md R5). -/
def asidlenOk (p : Params) : Bool := decide (p.asidlen ≤ (Machine.paramScheme p).asidMax)

/-- `ASIDMAX <= SXLEN` (00_scope.md R5). -/
def asidmaxOk (p : Params) : Bool := decide ((Machine.paramScheme p).asidMax ≤ p.xlen.bits)

/-- A standard scheme is used at its own register width (00_scope.md R7, 10_state.md R24). -/
def schemeFitsXlen (p : Params) : Bool :=
  match p.scheme, p.xlen with
  | .sv32, .rv32 => true
  | .sv39, .rv64 => true
  | .sv48, .rv64 => true
  | .sv57, .rv64 => true
  | .other, _ => true
  | _, _ => false

/-- The reset vector is an XLEN-bit, 4-byte aligned address (10_state.md R22). -/
def resetVectorOk (p : Params) : Bool :=
  decide (p.resetVector.toNat < 2 ^ p.xlen.bits) && decide (p.resetVector.toNat % 4 = 0)

/-- The parameters fit together (00_scope.md R5). -/
def Params.wellFormed (p : Params) : Bool :=
  asidlenOk p && asidmaxOk p && schemeFitsXlen p && resetVectorOk p

/-- The well-formedness of a scheme (00_scope.md R7): spans are positive and each divides the next,
MODE zero is Bare, and two addresses of one aligned span are both valid or both invalid, so that no
range contains an invalid address. DEDUCED from 20_memory.md R75, by which a walk always ends: there is a
level, and a valid PTE of the last level ends the walk (notes/assumptions/25.md). -/
structure Scheme.Wf (sc : Scheme) : Prop where
  levels_pos : 0 < sc.levels
  leaf_last : ∀ pte, sc.vBit pte = true → sc.isLeaf pte 0 = true
  modeNum_ne : sc.modeNum ≠ 0
  span_pos : ∀ l, 0 < sc.span l
  span_dvd : ∀ l, sc.span l ∣ sc.span (l + 1)
  valid_span : ∀ l, l < sc.levels → ∀ a b : Word,
    a.toNat / sc.span l = b.toNat / sc.span l → sc.validVA a = sc.validVA b

end Sys2Proof
end

