-- ==== Sys2Proof/Decode.lean ====
section
/-! DEFINITION. The decoder, total on any bytes and rejecting by name, and the encoder
(30_encoding.md). -/

namespace Sys2Proof

/-- The mask and the match of opcode_table.json (30_encoding.md R112). -/
def sfenceMask : BitVec 32 := 0xFE007FFF#32

/-- See `sfenceMask`. -/
def sfenceMatch : BitVec 32 := 0x12000073#32

/-- Why a word that fails the mask test is not decoded: the neighbours of 30_encoding.md R119, the
reserved words of R114, the 16-bit instructions of R110. -/
def classify (w : BitVec 32) : Reject :=
  if w.extractLsb' 0 2 ≠ 0b11#2 then .compressed
  else if w.extractLsb' 0 7 ≠ 0b1110011#7 then .outOfScope
  else if w.extractLsb' 12 3 ≠ 0#3 then .systemFunct3
  else if w.extractLsb' 25 7 = 0b0001001#7 then .reservedRd
  else if w.extractLsb' 7 5 ≠ 0#5 then .outOfScope
  else if w = 0x00000073#32 then .ecall
  else if w = 0x00100073#32 then .ebreak
  else if w = 0x10200073#32 then .sret
  else if w = 0x10500073#32 then .wfi
  else if w = 0x30200073#32 then .mret
  else if w = 0x18000073#32 ∨ w = 0x18100073#32 then .svinval
  else if w.extractLsb' 25 7 = 0b0001011#7 then .svinval
  else if w.extractLsb' 25 7 = 0b0010001#7 ∨ w.extractLsb' 25 7 = 0b0110001#7 then .hypervisor
  else .outOfScope

/-- Decode one 32-bit word (30_encoding.md R112). -/
def decodeWord (w : BitVec 32) : Except Reject Instr :=
  if w &&& sfenceMask = sfenceMatch then
    .ok (.sfenceVma (w.extractLsb' 15 5) (w.extractLsb' 20 5))
  else .error (classify w)

/-- The word of four bytes, the first at the lowest address (20_memory.md R50, 30_encoding.md R110). -/
def wordOfBytes (b0 b1 b2 b3 : Byte) : BitVec 32 := b3 ++ b2 ++ b1 ++ b0

/-- Decode the instruction at the head of a list of bytes, and give the rest. The length is told by
the two low bits of the first byte (30_encoding.md R110, R116). -/
def decodeBytes : List Byte → Except Reject (Instr × List Byte)
  | [] => .error .truncated
  | b0 :: bs =>
    if b0.extractLsb' 0 2 ≠ 0b11#2 then .error .compressed
    else match bs with
      | b1 :: b2 :: b3 :: rest =>
        match decodeWord (wordOfBytes b0 b1 b2 b3) with
        | .ok i => .ok (i, rest)
        | .error r => .error r
      | _ => .error .truncated

/-- The encoder of 30_encoding.md R112. -/
def encode : Instr → BitVec 32
  | .sfenceVma rs1 rs2 => sfenceMatch ||| (rs2.zeroExtend 32 <<< 20) ||| (rs1.zeroExtend 32 <<< 15)

/-- The four bytes of a word, lowest address first. -/
def bytesOfWord (w : BitVec 32) : List Byte :=
  [w.extractLsb' 0 8, w.extractLsb' 8 8, w.extractLsb' 16 8, w.extractLsb' 24 8]

/-- The bytes of an instruction in memory order (30_encoding.md R110). -/
def encodeBytes (i : Instr) : List Byte := bytesOfWord (encode i)

/-- The instruction this decoder reads from an instruction of opcode_table.json whose bits are `w`.
The table's one row has 32 bits, so the bits above `nbits` are zero. -/
def decodeTableWord (nbits w : Nat) : Option Instr :=
  match decodeBytes (bytesOfWord (BitVec.ofNat 32 (w % 2 ^ nbits))) with
  | .ok (i, _) => some i
  | .error _ => none

end Sys2Proof
end

