-- ==== Sys2Proof/Machine/State.lean ====
section
/-! DEFINITION. The state of the machine as plain data, the reasons a step can stop, and the state at
launch and after reset (10_state.md). -/

namespace Sys2Proof.Machine

/-- Memory: the bytes that differ from what an unlisted address reads as, by strictly rising physical
address (10_state.md R31, R34). -/
abbrev Memory := List Host.Cell

/-- `sstatus` as the model holds it (10_state.md R27). -/
structure Sstatus where
  sum : Bool
  mxr : Bool
  deriving DecidableEq, Repr

/-- `mstatus` as the model holds it (10_state.md R28). -/
structure Mstatus where
  tvm : Bool
  deriving DecidableEq, Repr

/-- One implicit read, remembered (10_state.md R33). -/
structure Observation where
  asid : Word
  level : Nat
  vbase : Word
  slot : Nat
  pte : Nat
  gpath : Bool
  born : Nat
  deriving DecidableEq, Repr

/-- One completed SFENCE.VMA (10_state.md R36). `va = none` records `rs1 = x0`, `asid = none`
records `rs2 = x0`. -/
structure FenceRec where
  time : Nat
  va : Option Word
  asid : Option Word
  deriving DecidableEq, Repr

/-- `Satp_h(t)` and `Visible_h(t)` at one time t (10_state.md R34, R37). -/
structure Snap where
  satp : Satp
  mem : Memory
  deriving DecidableEq, Repr

/-- One hart (10_state.md). `x` holds x1 to x31; x0 has no storage. `mem` is `Visible_h(now)`; `past`
holds the snapshots of the times before `now`, oldest first. `initialObs` is InitialObservations.
`instret` counts the instructions the hart has completed (60_exceptions.md R163;
notes/assumptions/39.md). `lastLoad`, the value the last `Load` action read, is the model's own
(notes/assumptions/21.md). -/
structure Hart where
  id : Nat
  x : Vector Word 31
  pc : Word
  priv : Priv
  satp : Satp
  sstatus : Sstatus
  mstatus : Mstatus
  mem : Memory
  past : List Snap
  fenceLog : List FenceRec
  initialObs : List Observation
  instret : Word
  lastLoad : Option Nat
  deriving DecidableEq, Repr

/-- The environment actions of 20_memory.md R52, and the further ones of notes/assumptions/20.md and
21.md (`observe`, `agentStore`; `setReg`, `setPc`, `setPriv`, `setTvm`, `retire`). The acting hart is
named by the turn. -/
inductive EnvAct where
  /-- translate `pc` and read the instruction word, of an instruction out of scope -/
  | fetch
  /-- `Store(h, va, n, v)` -/
  | store (va : Word) (n v : Nat)
  /-- `Load(h, va, n)` -/
  | load (va : Word) (n : Nat)
  /-- `WriteSatp(h, v)` -/
  | writeSatp (v : Satp)
  /-- `WriteSstatus(h, SUM, MXR)` -/
  | writeSstatus (sum mxr : Bool)
  /-- `DataFence(h)` -/
  | dataFence
  /-- `SendIPI(h, dest)` -/
  | sendIpi (dest : Nat)
  /-- `TakeIPI(h)`, with the handler's entry, which no source gives -/
  | takeIpi (pc : Word) (priv : Priv)
  /-- the k-th store in flight, if it is for this hart, becomes visible to it (10_state.md R34); it may
  do so again, until a data fence of the storing hart (notes/assumptions/20.md) -/
  | observe (k : Nat)
  /-- a store of another agent becomes visible to this hart (10_state.md R34) -/
  | agentStore (pa n v : Nat)
  /-- an instruction out of scope writes a register -/
  | setReg (r : Reg) (v : Word)
  /-- an instruction out of scope, or a trap, moves the program counter -/
  | setPc (v : Word)
  /-- a trap or a trap return changes the privilege mode -/
  | setPriv (m : Priv)
  /-- machine-mode software writes mstatus.TVM -/
  | setTvm (v : Bool)
  /-- an instruction out of scope completes, and counts in `instret` (60_exceptions.md R163) -/
  | retire
  deriving DecidableEq, Repr

/-- Who moves next: a hart runs its next instruction, or performs an environment action. -/
inductive Turn where
  | instr (hart : Nat)
  | env (hart : Nat) (act : EnvAct)
  deriving DecidableEq, Repr

/-- One byte of a store on its way to another hart. `owed` says that a data fence of the storing hart
must still deliver it (20_memory.md R70). -/
structure PendingByte where
  val : Byte
  owed : Bool
  deriving DecidableEq, Repr

/-- A store of hart `src` that may become visible to hart `dst` at any time, until a data fence of `src`:
the model's form of the parameter `Visible` (10_state.md R34, 20_memory.md R69, decision D15;
notes/assumptions/20.md). -/
structure Pending where
  src : Nat
  dst : Nat
  pa : Nat
  bytes : List PendingByte
  deriving DecidableEq, Repr

/-- An interprocessor interrupt sent and not yet taken (60_exceptions.md R160). -/
structure Ipi where
  src : Nat
  dst : Nat
  deriving DecidableEq, Repr

/-- The machine. `hart` is the hart that moved last, `others` the rest. `agenda` (who moves next; when
it is empty, `hart` runs its next instruction), `written` (the physical ranges stored to since launch,
as address and length) and `draws` (the counter of the free choices) are the model's own
(notes/assumptions/19.md, 23.md, 16.md). -/
structure State where
  params : Params
  now : Nat
  hart : Hart
  others : List Hart
  agenda : List Turn
  inFlight : List Pending
  ipis : List Ipi
  written : List (Nat × Nat)
  draws : Nat
  deriving DecidableEq, Repr

/-- The exceptions the spec names (60_exceptions.md R154; the first two in R156). -/
inductive Exception where
  | instructionAddressMisaligned
  | instructionAccessFault
  | illegalInstruction
  | instructionPageFault
  | loadPageFault
  | storePageFault
  deriving DecidableEq, Repr

/-- The faults of a step. -/
inductive Fault where
  /-- The abstract outcome `Trap(e, info)` of 60_exceptions.md R150, raised by SFENCE.VMA where it is
  illegal, by a fetch, a load or a store. Safe: the spec gives no trap entry (R157). -/
  | trap (e : Exception) (info : Word)
  /-- Raised by a translation for which no observation is usable, which 20_memory.md R75 excludes: only
  under a scheme that is not well formed, or where an unknown rule translates while MODE is Bare. Safe
  (notes/assumptions/25.md). -/
  | noTranslation (va : Word)
  /-- Raised by an explicit access outside `PAddr`. Safe (notes/assumptions/7.md). -/
  | noSuchAddress (pa n : Nat)
  deriving DecidableEq, Repr

/-- The refusals of a step. -/
inductive Refusal where
  /-- Raised by `exec` for an instruction without a meaning; no instruction is left. Safe. -/
  | notModelled (mnemonic : String)
  /-- Raised by a step whose fetched word is not SFENCE.VMA: out of scope or reserved
  (30_encoding.md R114, R119; decision D19). Safe. -/
  | notDecoded (why : Reject) (w : BitVec 32)
  /-- Raised by a data access or a page-table read on a big-endian hart (decision D14). Safe. -/
  | bigEndian
  /-- Raised by a fetch from bytes that were stored to (20_memory.md R71, decision D19). Safe. -/
  | selfModifiedCode (pa : Nat)
  /-- Raised by `WriteSatp` from one non-Bare mode to another (decision D17). Safe. -/
  | satpModeChange (old new : Nat)
  /-- Raised by `WriteSatp` to a mode that is neither Bare nor the scheme's (decision D17). Safe. -/
  | satpModeUnknown (new : Nat)
  /-- Raised by a turn or a `SendIPI` that names a hart that is not there. Safe. -/
  | noSuchHart (id : Nat)
  /-- Raised by `TakeIPI` when none was sent (60_exceptions.md R160). Safe. -/
  | noPendingIpi (id : Nat)
  /-- Raised by `observe` when no such store is in flight to the hart. Safe. -/
  | nothingInFlight (k : Nat)
  /-- Raised by an action that would enter U-mode on a hart without it (10_state.md R29). Safe. -/
  | noUserMode
  /-- Raised by `WriteSatp` in U-mode and in S-mode with TVM set, and by `setTvm` outside M-mode: in
  that mode no instruction writes the register (10_state.md R24, R28; notes/assumptions/32.md).
  Safe. -/
  | notPermitted (m : Priv)
  deriving DecidableEq, Repr

/-- Why an operation gives no result. -/
inductive Stop where
  | fault (f : Fault)
  | refused (r : Refusal)
  deriving DecidableEq, Repr

/-- A hart at launch (10_state.md R38). The values of x1 to x31, `satp`, `sstatus`, `mstatus`
and `instret` are DESIGN CHOICES (notes/assumptions/3.md, 4.md, 39.md). -/
def Hart.launch (p : Params) (m : Memory) (obs : List Observation) (id : Nat) : Hart where
  id := id
  x := Vector.replicate 31 0#64
  pc := p.resetVector
  priv := .M
  satp := { mode := 0, asid := 0#64, root := 0#64 }
  sstatus := { sum := false, mxr := false }
  mstatus := { tvm := false }
  mem := m
  past := []
  fenceLog := []
  initialObs := obs
  instret := 0#64
  lastLoad := none

/-- The machine at launch: parameters, initial memory, initial observations and the other harts'
identifiers are the launch parameters of 10_state.md R38, 20_memory.md R54 and 60_exceptions.md
R162. DESIGN CHOICE: `InitialObservations` is given for each hart by its identifier, since the spec does
not say whether the parameter is one for all harts (20_memory.md R79; notes/assumptions/26.md). -/
def State.launch (p : Params) (m : Memory) (obs : Nat → List Observation) (first : Nat)
    (rest : List Nat) : State where
  params := p
  now := 0
  hart := Hart.launch p m (obs first) first
  others := rest.map fun id => Hart.launch p m (obs id) id
  agenda := []
  inFlight := []
  ipis := []
  written := []
  draws := 0

/-- The machine after reset: one hart, nothing in memory, the parameters of `Params.default`. -/
def State.reset : State := State.launch Params.default [] (fun _ => []) 0 []

end Sys2Proof.Machine
end

