-- ==== Sys2Proof/Machine/Memory.lean ====
section
/-! DEFINITION. Reading and writing memory, byte order, and the canonical form (10_state.md R31,
20_memory.md R50). -/

namespace Sys2Proof.Machine

/-- What an address that is not listed reads as. DESIGN CHOICE (notes/assumptions/6.md): zero, as the
script of 95_test_vectors.md section 4 has it. -/
def unlistedByte : Byte := 0#8

/-- The byte at a physical address. -/
def Memory.read : Memory → Nat → Byte
  | [], _ => unlistedByte
  | (b, v) :: m, a => if a = b then v else if a < b then unlistedByte else Memory.read m a

/-- Write one byte, keeping the canonical form. -/
def Memory.write : Memory → Nat → Byte → Memory
  | [], a, v => if v = unlistedByte then [] else [(a, v)]
  | (b, w) :: m, a, v =>
    if a < b then (if v = unlistedByte then (b, w) :: m else (a, v) :: (b, w) :: m)
    else if a = b then (if v = unlistedByte then m else (a, v) :: m)
    else (b, w) :: Memory.write m a v

/-- Every entry lies at or above `lo`, addresses rise strictly, and no entry is `unlistedByte`. -/
def Memory.wfFrom : Nat → Memory → Bool
  | _, [] => true
  | lo, (a, v) :: m => decide (lo ≤ a) && v != unlistedByte && Memory.wfFrom (a + 1) m

/-- The canonical form. -/
def Memory.wf (m : Memory) : Bool := Memory.wfFrom 0 m

/-- The `n`-byte little-endian number at `a`. -/
def Memory.readLE (m : Memory) : Nat → Nat → Nat
  | _, 0 => 0
  | a, n + 1 => (Memory.read m a).toNat + 256 * Memory.readLE m (a + 1) n

/-- Write bytes at rising addresses. -/
def Memory.writeBytes : Memory → Nat → List Byte → Memory
  | m, _, [] => m
  | m, a, b :: bs => Memory.writeBytes (Memory.write m a b) (a + 1) bs

/-- Write bytes at rising addresses, leaving alone each address whose entry is none. -/
def Memory.writeSome : Memory → Nat → List (Option Byte) → Memory
  | m, _, [] => m
  | m, a, none :: bs => Memory.writeSome m (a + 1) bs
  | m, a, some b :: bs => Memory.writeSome (Memory.write m a b) (a + 1) bs

/-- The `n` low bytes of a number, least significant first. -/
def leBytes : Nat → Nat → List Byte
  | 0, _ => []
  | n + 1, v => BitVec.ofNat 8 v :: leBytes n (v / 256)

/-- Whether the `n` bytes at `a` lie in `PAddr` (10_state.md R31). -/
def inPAddr (p : Params) (a n : Nat) : Bool := decide (a + n ≤ 2 ^ p.paBits)

end Sys2Proof.Machine
end

