-- ==== Sys2Proof/Machine/Ops.lean ====
section
/-! DEFINITION. The named operations over registers, memory, time and the fence log that every meaning
and every environment action is made of, and taking an exception. -/

namespace Sys2Proof.Machine

/-- The value cut to XLEN bits: arithmetic on `Bits XLEN` wraps (00_scope.md R8). -/
def trunc (p : Params) (v : Word) : Word := lowBits p.xlen.bits v

/-- `x[r]` of a hart: x0 reads as zero (10_state.md R20). -/
def Hart.getX (p : Params) (h : Hart) (r : Reg) : Word :=
  if r = 0#5 then 0#64
  else trunc p (h.x[r.toNat - 1]'(by have := r.isLt; omega))

/-- `x[r] <- v` on a hart: a write to x0 is discarded (10_state.md R20). -/
def Hart.setX (p : Params) (h : Hart) (r : Reg) (v : Word) : Hart :=
  if r = 0#5 then h
  else { h with x := h.x.set (r.toNat - 1) (trunc p v) (by have := r.isLt; omega) }

/-- `x[r]` (00_scope.md R10). -/
def getX (s : State) (r : Reg) : Word := s.hart.getX s.params r

/-- `x[r] <- v` (00_scope.md R10). SFENCE.VMA never does this. -/
def setX (s : State) (r : Reg) (v : Word) : State := { s with hart := s.hart.setX s.params r v }

/-- `pc` (10_state.md R22). -/
def getPc (s : State) : Word := trunc s.params s.hart.pc

/-- `pc <- v` (00_scope.md R10). -/
def setPc (s : State) (v : Word) : State :=
  { s with hart := { s.hart with pc := trunc s.params v } }

/-- `pc <- pc + 4` modulo `2^XLEN` (10_state.md R22, general knowledge G6). -/
def advancePc (s : State) : State := setPc s (getPc s + 4#64)

/-- One more instruction is completed: it counts in `instret`, which wraps (60_exceptions.md R163;
PRESUMED width, notes/assumptions/39.md). -/
def retire (s : State) : State := { s with hart := { s.hart with instret := s.hart.instret + 1#64 } }

/-- `mstatus.TVM`, constant false on a hart without it (10_state.md R28). -/
def tvmBit (s : State) : Bool := s.params.hasTVM && s.hart.mstatus.tvm

/-- `mstatus.TVM <- v`; on a hart without TVM the field stays false (10_state.md R28). -/
def setTvm (s : State) (v : Bool) : State :=
  { s with hart := { s.hart with mstatus := { tvm := s.params.hasTVM && v } } }

/-- The moving hart may write `satp`: in M-mode, and in S-mode when TVM is clear (10_state.md R24,
general knowledge G8). -/
def satpWritable (s : State) : Bool :=
  match s.hart.priv with
  | .U => false
  | .S => !tvmBit s
  | .M => true

/-- `raise E(info)` (60_exceptions.md R150): the abstract outcome `Trap(E, info)`. The instruction
that raises gives no next state, so it changes nothing; trap entry and return are in no source
(R157, R158). -/
def raise (e : Exception) (info : Word) : Stop := .fault (.trap e info)

/-- The page fault an access raises (60_exceptions.md R154). -/
def pageFault : Access → Exception
  | .load => .loadPageFault
  | .store => .storePageFault
  | .execute => .instructionPageFault

/-- Cause codes: general knowledge (60_exceptions.md R154); the first two are PRESUMED
(notes/assumptions/33.md). No rule of the model depends on them. -/
def exceptionCode : Exception → Nat
  | .instructionAddressMisaligned => 0
  | .instructionAccessFault => 1
  | .illegalInstruction => 2
  | .instructionPageFault => 12
  | .loadPageFault => 13
  | .storePageFault => 15

/-- A stop as the outcome of a step. -/
def Stop.outcome : Stop → Host.Outcome State Fault Refusal
  | .fault f => .fault f
  | .refused r => .refused r

/-- The result of an environment action as the outcome of a step. -/
def outcomeOf : Except Stop State → Host.Outcome State Fault Refusal
  | .ok s => .next s
  | .error e => e.outcome

/-- The hart's `satp` and view of memory at this moment. -/
def Hart.snap (h : Hart) : Snap := { satp := h.satp, mem := h.mem }

/-- `Satp_h` and `Visible_h` at every time from 0 to now, in order (10_state.md R34, R37). -/
def Hart.timeline (h : Hart) : List Snap := h.past ++ [h.snap]

/-- The present of a hart becomes its past. -/
def Hart.tick (h : Hart) : Hart := { h with past := h.past ++ [h.snap] }

/-- A new step begins (10_state.md R35): `now` advances, and every hart's present becomes past. -/
def tick (s : State) : State :=
  { s with now := s.now + 1, hart := s.hart.tick, others := s.others.map Hart.tick }

/-- `FenceLog_h <- FenceLog_h ++ [f]` for the executing hart (10_state.md R36). -/
def appendFence (s : State) (f : FenceRec) : State :=
  { s with hart := { s.hart with fenceLog := s.hart.fenceLog ++ [f] } }

/-- Take the hart with this identifier out of a list and leave another in its place. -/
def swapHart (id : Nat) (h : Hart) : List Hart → Option (Hart × List Hart)
  | [] => none
  | g :: gs =>
    if g.id = id then some (g, h :: gs)
    else match swapHart id h gs with
      | some (g', gs') => some (g', g :: gs')
      | none => none

/-- Make the named hart the one that moves (60_exceptions.md R162). -/
def switchTo (id : Nat) (s : State) : Except Stop State :=
  if s.hart.id = id then .ok s
  else match swapHart id s.hart s.others with
    | some (g, gs) => .ok { s with hart := g, others := gs }
    | none => .error (.refused (.noSuchHart id))

/-- The pieces in which a store reaches another hart: whole when it is naturally aligned and as wide as a
PTE, or 1, 2, 4 or 8 bytes wide and no wider than a PTE (20_memory.md R53, general knowledge G21), else
byte by byte (notes/assumptions/30.md). -/
def storePieces (p : Params) (pa n : Nat) (bytes : List Byte) : List (Nat × List Byte) :=
  let pteSize := (paramScheme p).pteSize
  if (n = pteSize ∨ (n = 1 ∨ n = 2 ∨ n = 4 ∨ n = 8) ∧ n ≤ pteSize) ∧ pa % n = 0 then [(pa, bytes)]
  else bytes.zipIdx.map fun b => (pa + b.2, [b.1])

/-- A store becomes visible to a hart. -/
def Hart.see (h : Hart) (pa : Nat) (bytes : List Byte) : Hart :=
  { h with mem := h.mem.writeBytes pa bytes }

/-- The bytes of a store that no hart has seen yet: a data fence owes them all. -/
def owedBytes (bytes : List Byte) : List PendingByte := bytes.map fun b => { val := b, owed := true }

/-- Whether a store in flight covers an address. -/
def Pending.covers (q : Pending) (a : Nat) : Bool :=
  decide (q.pa ≤ a) && decide (a < q.pa + q.bytes.length)

/-- In a store of the same hart to the same hart as `q`, a data fence now owes the bytes that `q` covers,
or no longer owes them. -/
def Pending.mark (q : Pending) (owed : Bool) (r : Pending) : Pending :=
  if r.src = q.src ∧ r.dst = q.dst then
    { r with bytes := r.bytes.mapIdx fun i b =>
        if q.covers (r.pa + i) then { b with owed := owed } else b }
  else r

/-- The stores in flight after the k-th, `q`, became visible: of the bytes it covers, a data fence no
longer owes what that hart stored up to `q`, and owes again what it stored later
(20_memory.md R70). -/
def markSeen (q : Pending) (k : Nat) (l : List Pending) : List Pending :=
  (l.take (k + 1)).map (q.mark false) ++ (l.drop (k + 1)).map (q.mark true)

/-- What a data fence still owes of a store becomes visible to a hart. -/
def Hart.seeOwed (h : Hart) (q : Pending) : Hart :=
  { h with mem := h.mem.writeSome q.pa (q.bytes.map fun b => if b.owed then some b.val else none) }

/-- `MemWrite(pa, n, v)` of the moving hart (20_memory.md R52): it sees its own store at once
(10_state.md R34); for every other hart the store is in flight. -/
def memWrite (s : State) (pa n v : Nat) : State :=
  let bytes := leBytes n v
  let pieces := storePieces s.params pa n bytes
  { s with
    hart := s.hart.see pa bytes
    inFlight := s.inFlight ++ s.others.flatMap fun g =>
      pieces.map fun q => { src := s.hart.id, dst := g.id, pa := q.1, bytes := owedBytes q.2 }
    written := s.written ++ [(pa, n)] }

/-- `MemRead(pa, n)` of the moving hart, from `Visible_h(now)` (20_memory.md R52). -/
def memRead (s : State) (pa n : Nat) : Nat := s.hart.mem.readLE pa n

/-- Whether some byte of the `n` at `pa` was stored to since launch (decision D19). -/
def storedTo (s : State) (pa n : Nat) : Bool :=
  s.written.any fun q => decide (q.1 < pa + n) && decide (pa < q.1 + q.2)

end Sys2Proof.Machine
end

