-- ==== Sys2Proof/Machine/Operands.lean ====
section
/-! DEFINITION. The operand forms of SFENCE.VMA (40_sfence_vma.md R131, R137). -/

namespace Sys2Proof.Machine

/-- `va_sel`: none when the field rs1 is 0, else the whole value of the register. -/
def vaSel (rs1 : Reg) (s : State) : Option Word := if rs1 = 0#5 then none else some (getX s rs1)

/-- The ASID in a register's value: its low ASIDLEN bits, every higher bit ignored (R137). -/
def asidOf (p : Params) (v : Word) : Word := lowBits p.asidlen v

/-- `asid_sel`: none when the field rs2 is 0, else the ASID in the register. -/
def asidSel (rs2 : Reg) (s : State) : Option Word :=
  if rs2 = 0#5 then none else some (asidOf s.params (getX s rs2))

end Sys2Proof.Machine
end

