-- ==== Sys2Proof/Machine/SfenceVma.lean ====
section
/-! DEFINITION. The meaning of SFENCE.VMA (40_sfence_vma.md R141). -/

namespace Sys2Proof.Machine

/-- The privilege check (60_exceptions.md R151): illegal in U-mode, and in S-mode when TVM is set. -/
def privilegeForbids (s : State) : Bool :=
  match s.hart.priv with
  | .U => true
  | .S => tvmBit s
  | .M => false

/-- A Bare-only implementation that traps (60_exceptions.md R152). -/
def bareOnlyTraps (p : Params) : Bool :=
  !p.satpModeWritable && decide (p.bareOnlySfence = .trap)

/-- Step 1 of 40_sfence_vma.md R141: the instruction is illegal here. -/
def sfenceIllegal (s : State) : Bool := privilegeForbids s || bareOnlyTraps s.params

/-- Whether the fence has an effect: an address operand must be a valid virtual address, under the
machine's one scheme whatever satp.MODE is (40_sfence_vma.md R140, decision D11). -/
def fenceTakesEffect (p : Params) : Option Word → Bool
  | none => true
  | some v => (paramScheme p).validVA v

/-- Step 3 of 40_sfence_vma.md R141: one record, or nothing for an invalid address (R140). -/
def recordFence (va asid : Option Word) (s : State) : State :=
  if fenceTakesEffect s.params va then appendFence s { time := s.now, va := va, asid := asid }
  else s

/-- SFENCE.VMA (40_sfence_vma.md R141). Completed, it counts as one retired instruction
(60_exceptions.md R163). -/
def execSfenceVma (rs1 rs2 : Reg) (s : State) : Host.Outcome State Fault Refusal :=
  if sfenceIllegal s then
    (raise .illegalInstruction ((encode (.sfenceVma rs1 rs2)).zeroExtend 64)).outcome
  else
    .next (retire (advancePc (recordFence (vaSel rs1 s) (asidSel rs2 s) s)))

end Sys2Proof.Machine
end

