-- ==== Sys2Proof/Machine/Reference.lean ====
section
/-! DEFINITION. The reference model of implicit references (20_memory.md section 7): which
observations a hart may use, first as the rules state it, then as a list that can be computed. -/

namespace Sys2Proof.Machine

/-- The three classes of an observation (10_state.md R33). -/
inductive ObsClass where
  | invalid
  | leaf
  | nonleaf
  deriving DecidableEq, Repr

/-- The class of an observation (10_state.md R33). -/
def obsClass (sc : Scheme) (o : Observation) : ObsClass :=
  if sc.vBit o.pte then (if sc.isLeaf o.pte o.level then .leaf else .nonleaf) else .invalid

/-- A terminal observation ends a walk: it is a leaf or invalid (10_state.md R33). -/
def terminal (sc : Scheme) (o : Observation) : Bool := decide (obsClass sc o ≠ .nonleaf)

/-- `v in range(o)`, compared as unsigned numbers (40_sfence_vma.md R138). -/
def inRange (sc : Scheme) (o : Observation) (v : Word) : Bool :=
  decide (o.vbase.toNat ≤ v.toNat) && decide (v.toNat < o.vbase.toNat + sc.span o.level)

/-- `range(o)` is contained in `range(p)`. -/
def rangeWithin (sc : Scheme) (o p : Observation) : Bool :=
  decide (p.vbase.toNat ≤ o.vbase.toNat) &&
    decide (o.vbase.toNat + sc.span o.level ≤ p.vbase.toNat + sc.span p.level)

/-- `Subsumes(f, o)` (40_sfence_vma.md R138). -/
def subsumes (sc : Scheme) (f : FenceRec) (o : Observation) : Bool :=
  match f.va, f.asid with
  | none, none => true
  | none, some a => decide (o.asid = a) && !o.gpath
  | some v, none => terminal sc o && inRange sc o v
  | some v, some a => terminal sc o && inRange sc o v && decide (o.asid = a) && !o.gpath

/-- `slot_of(table, l, va)` (20_memory.md R73). -/
def slotOf (sc : Scheme) (table l : Nat) (va : Word) : Nat := table + sc.index l va * sc.pteSize

/-- `Val_h(slot, t)` in the view of memory of time `t` (10_state.md R34), little-endian (20_memory.md
R50). A slot outside `PAddr` holds a free value (notes/assumptions/34.md). -/
def valIn (p : Params) (m : Memory) (slot t : Nat) : Nat :=
  let n := (paramScheme p).pteSize
  if inPAddr p slot n then m.readLE slot n else Config.absentPte slot t % 256 ^ n

/-- No fence of the log that completed after the time `o` dates from, up to `t`, subsumes `o`: the
last condition of 20_memory.md R74. -/
def unfenced (sc : Scheme) (log : List FenceRec) (o : Observation) (t : Nat) : Bool :=
  log.all fun f => !(decide (o.born < f.time) && decide (f.time ≤ t) && subsumes sc f o)

/-! The rules as they stand. -/

/-- The slot of `o` held `o.pte` at `o.born` in the hart's view (20_memory.md R73). -/
def heldAt (p : Params) (h : Hart) (o : Observation) : Prop :=
  ∃ sn, h.timeline[o.born]? = some sn ∧ valIn p sn.mem o.slot o.born = o.pte

/-- `ReadOK_h(o, t)` (20_memory.md R73). -/
def ReadOK (p : Params) (h : Hart) (o : Observation) (t : Nat) : Prop :=
  o.born ≤ t ∧ heldAt p h o ∧
    o.vbase.toNat % (paramScheme p).span o.level = 0 ∧
    ∀ v, inRange (paramScheme p) o v = true → (paramScheme p).validVA v = true

/-- The (root) case of `Obtainable_h(o, t)` (20_memory.md R73). -/
def FromRoot (p : Params) (h : Hart) (o : Observation) (t : Nat) : Prop :=
  ∃ sn, h.timeline[t]? = some sn ∧ sn.satp.mode ≠ 0 ∧
    o.level + 1 = (paramScheme p).levels ∧ o.asid = sn.satp.asid ∧
    o.slot = slotOf (paramScheme p) ((paramScheme p).rootAddr sn.satp) o.level o.vbase ∧
    o.gpath = (paramScheme p).gBit o.pte ∧ ReadOK p h o t

/-- What the (step) case of `Obtainable_h(o, t)` asks of the parent `q` beside its being usable at `t`
(20_memory.md R73). -/
def FromParent (p : Params) (h : Hart) (q o : Observation) (t : Nat) : Prop :=
  obsClass (paramScheme p) q = .nonleaf ∧ q.level = o.level + 1 ∧
    rangeWithin (paramScheme p) o q = true ∧ o.asid = q.asid ∧
    o.slot = slotOf (paramScheme p) ((paramScheme p).nextTable q.pte) o.level o.vbase ∧
    o.gpath = (q.gpath || (paramScheme p).gBit o.pte) ∧ ReadOK p h o t

/-- The (initial) case of `Obtainable_h(o, t)` (20_memory.md R73). -/
def FromLaunch (h : Hart) (o : Observation) (t : Nat) : Prop :=
  t = 0 ∧ o ∈ h.initialObs ∧ o.born = 0

/-- `Usable_h(o, now)` for an observation `depth` levels below the root (20_memory.md R74, with
`Obtainable_h` of R73 written out). The recursion is on `LEVELS - 1 - o.level`, as R73 says. -/
def UsableAt (p : Params) (h : Hart) : Nat → Observation → Nat → Prop
  | 0, o, now => ∃ t, o.born ≤ t ∧ t ≤ now ∧ (FromRoot p h o t ∨ FromLaunch h o t) ∧
      unfenced (paramScheme p) h.fenceLog o now = true
  | d + 1, o, now => ∃ t, o.born ≤ t ∧ t ≤ now ∧
      ((∃ q, UsableAt p h d q t ∧ FromParent p h q o t) ∨ FromLaunch h o t) ∧
      unfenced (paramScheme p) h.fenceLog o now = true

/-- `Usable_h(o, now)` (20_memory.md R74). -/
def Usable (p : Params) (h : Hart) (o : Observation) (now : Nat) : Prop :=
  o.level < (paramScheme p).levels ∧
    UsableAt p h ((paramScheme p).levels - 1 - o.level) o now

/-- What 20_memory.md R75 lets a hart pick to translate `va` at `now`. -/
def Candidate (p : Params) (h : Hart) (va : Word) (now : Nat) (o : Observation) : Prop :=
  Usable p h o now ∧ terminal (paramScheme p) o = true ∧ inRange (paramScheme p) o va = true ∧
    (o.asid = h.satp.asid ∨ o.gpath = true)

/-! The same as lists. Only observations whose range contains the address are listed. -/

/-- The first address of the aligned span of level `l` that contains `va`. -/
def spanBase (sc : Scheme) (l : Nat) (va : Word) : Word :=
  BitVec.ofNat 64 (va.toNat - va.toNat % sc.span l)

/-- The implicit reads, at every time from 0 to `t`, of the entry for `va` in the level-`l` table at
`table`. -/
def readsOf (p : Params) (h : Hart) (va : Word) (l table : Nat) (asid : Word) (g : Bool)
    (t : Nat) : List Observation :=
  let sc := paramScheme p
  let vb := spanBase sc l va
  let slot := slotOf sc table l vb
  if sc.validVA vb then
    (List.range (t + 1)).filterMap fun b =>
      (h.timeline[b]?).map fun sn =>
        let pte := valIn p sn.mem slot b
        { asid := asid, level := l, vbase := vb, slot := slot, pte := pte,
          gpath := g || sc.gBit pte, born := b }
  else []

/-- The (root) case at time `t`. -/
def rootReads (p : Params) (h : Hart) (va : Word) (t : Nat) : List Observation :=
  match h.timeline[t]? with
  | some sn =>
    if sn.satp.mode = 0 then []
    else readsOf p h va ((paramScheme p).levels - 1) ((paramScheme p).rootAddr sn.satp)
      sn.satp.asid false t
  | none => []

/-- The (step) case at time `t`, from the parent `q`, for level `l`. -/
def stepReads (p : Params) (h : Hart) (va : Word) (l : Nat) (q : Observation) (t : Nat) :
    List Observation :=
  if obsClass (paramScheme p) q = .nonleaf ∧ q.level = l + 1 then
    (readsOf p h va l ((paramScheme p).nextTable q.pte) q.asid q.gpath t).filter fun o =>
      rangeWithin (paramScheme p) o q
  else []

/-- The (initial) case for level `l`. -/
def launchReads (p : Params) (h : Hart) (va : Word) (l : Nat) : List Observation :=
  h.initialObs.filter fun o =>
    decide (o.level = l) && decide (o.born = 0) && inRange (paramScheme p) o va

/-- The observations `depth` levels below the root that cover `va` and are usable at `now`. -/
def usableList (p : Params) (h : Hart) (va : Word) : Nat → Nat → List Observation
  | 0, now =>
    (((List.range (now + 1)).flatMap (rootReads p h va) ++
      launchReads p h va ((paramScheme p).levels - 1)).filter fun o =>
        unfenced (paramScheme p) h.fenceLog o now).eraseDups
  | d + 1, now =>
    (((List.range (now + 1)).flatMap (fun t =>
        (usableList p h va d t).flatMap fun q =>
          stepReads p h va ((paramScheme p).levels - 1 - (d + 1)) q t) ++
      launchReads p h va ((paramScheme p).levels - 1 - (d + 1))).filter fun o =>
        unfenced (paramScheme p) h.fenceLog o now).eraseDups

/-- The observations the hart may pick to translate `va` at `now` (20_memory.md R75). -/
def candidates (p : Params) (h : Hart) (va : Word) (now : Nat) : List Observation :=
  ((List.range (paramScheme p).levels).flatMap fun d => usableList p h va d now).filter fun o =>
    terminal (paramScheme p) o && (decide (o.asid = h.satp.asid) || o.gpath)

/-- The walk made entirely at `now` (20_memory.md R75, R81): from the table at `table`, the entry of
level `levels - 1` first; the terminal observation it ends in, which a well-formed scheme always
has. -/
def walkNow (p : Params) (h : Hart) (va : Word) (now : Nat) (asid : Word) :
    Nat → Nat → Bool → Option Observation
  | 0, _, _ => none
  | l + 1, table, g =>
    let sc := paramScheme p
    let vb := spanBase sc l va
    let slot := slotOf sc table l vb
    let pte := valIn p h.mem slot now
    let o : Observation :=
      { asid := asid, level := l, vbase := vb, slot := slot, pte := pte,
        gpath := g || sc.gBit pte, born := now }
    if terminal sc o then some o
    else walkNow p h va now asid l (sc.nextTable pte) (g || sc.gBit pte)

/-- The newest translation: the walk from the current root (20_memory.md R81). -/
def newestWalk (p : Params) (h : Hart) (va : Word) (now : Nat) : Option Observation :=
  walkNow p h va now h.satp.asid (paramScheme p).levels ((paramScheme p).rootAddr h.satp) false

end Sys2Proof.Machine
end

