-- ==== Sys2Proof/Machine/Translate.lean ====
section
/-! DEFINITION. Translating an address and fetching an instruction (20_memory.md R75, R76). -/

namespace Sys2Proof.Machine

/-- `TranslationActive(h)` (20_memory.md R76, decision D22, general knowledge G28). -/
def translationActive (s : State) : Bool :=
  match s.params.activeRule with
  | .standard => decide (s.hart.satp.mode ≠ 0) && decide (s.hart.priv ≠ .M)
  | .other => Config.otherActive (decide (s.hart.satp.mode = 0)) s.hart.priv

/-- The observations the moving hart may pick for `va` now (20_memory.md R75). -/
def candidatesNow (s : State) (va : Word) : List Observation :=
  candidates s.params s.hart va s.now

/-- One member of a list, picked by a number: every member is picked by some number. -/
def pickFrom (l : List Observation) (n : Nat) : Option Observation := l[n % l.length]?

/-- `ImplicitWrite(h, o, acc)` (20_memory.md R76, decision D16): nothing by default; else one atomic
compare-and-update of the PTE in the hart's view now (notes/assumptions/18.md). -/
def implicitWrite (acc : Access) (o : Observation) (s : State) : State :=
  let sc := paramScheme s.params
  match s.params.implicitWrites with
  | .absent => s
  | .updatePte =>
    if inPAddr s.params o.slot sc.pteSize ∧ valIn s.params s.hart.mem o.slot s.now = o.pte ∧
        sc.implicitUpdate o.pte acc ≠ o.pte then
      memWrite s o.slot sc.pteSize (sc.implicitUpdate o.pte acc)
    else s

/-- The PTE value the permission check is made on: the one observed, or what the implicit write makes
of it (notes/assumptions/18.md). -/
def checkedPte (p : Params) (acc : Access) (o : Observation) : Nat :=
  match p.implicitWrites with
  | .absent => o.pte
  | .updatePte => (paramScheme p).implicitUpdate o.pte acc

/-- Whether an observation lets the access through: it is valid and its permissions, checked with the
current privilege mode, SUM and MXR, allow it (20_memory.md R76, 10_state.md R27). -/
def permits (s : State) (acc : Access) (o : Observation) : Bool :=
  decide (obsClass (paramScheme s.params) o ≠ .invalid) &&
    (paramScheme s.params).check (checkedPte s.params acc o) acc s.hart.priv
      s.hart.sstatus.sum s.hart.sstatus.mxr

/-- What a translation does with the observation it picked (20_memory.md R76). -/
def useObservation (acc : Access) (va : Word) (o : Observation) (s : State) :
    Except Stop (Nat × State) :=
  if permits s acc o then
    .ok ((paramScheme s.params).target o.pte o.level va, implicitWrite acc o s)
  else .error (raise (pageFault acc) va)

/-- `Translate(h, va, acc)` with a given choice (20_memory.md R76). -/
def translateWith (choice : Nat) (acc : Access) (va : Word) (s : State) :
    Except Stop (Nat × State) :=
  if !translationActive s then .ok (va.toNat, s)
  else if s.params.dataEndian = .big then .error (.refused .bigEndian)
  else if !(paramScheme s.params).validVA va then .error (raise (pageFault acc) va)
  else match pickFrom (candidatesNow s va) choice with
    | some o => useObservation acc va o { s with draws := s.draws + 1 }
    | none => .error (.fault (.noTranslation va))

/-- `Translate(h, va, acc)` (20_memory.md R76). The choice of R75 is a free value. -/
def translate (acc : Access) (va : Word) (s : State) : Except Stop (Nat × State) :=
  translateWith (Config.pick s.draws) acc va s

/-- Read `n` bytes of an instruction through the translation of `va` (20_memory.md R52 `Fetch`). Bytes
that were stored to are not executed (decision D19). DESIGN CHOICE: the access fault of a fetch outside
`PAddr` records the virtual address of the bytes read (notes/assumptions/7.md). -/
def fetchBytes (va : Word) (n : Nat) (s : State) : Except Stop (Nat × State) :=
  match translate .execute va s with
  | .error e => .error e
  | .ok (pa, s1) =>
    if !inPAddr s.params pa n then .error (raise .instructionAccessFault va)
    else if storedTo s1 pa n then .error (.refused (.selfModifiedCode pa))
    else .ok (memRead s1 pa n, s1)

/-- `Fetch(h)`: the instruction word at `pc` (20_memory.md R52, R71). `pc` is 4-byte aligned
(decision D20); where IALIGN is 16 a word at a 2-byte aligned address is read in two halves, each
through its own translation, the second only for a 32-bit instruction (notes/assumptions/12.md). -/
def fetch (s : State) : Except Stop (BitVec 32 × State) :=
  let pc := getPc s
  if pc.toNat % 4 = 0 then
    match fetchBytes pc 4 s with
    | .error e => .error e
    | .ok (w, s1) => .ok (BitVec.ofNat 32 w, s1)
  else if s.params.ialign = .bits16 ∧ pc.toNat % 2 = 0 then
    match fetchBytes pc 2 s with
    | .error e => .error e
    | .ok (lo, s1) =>
      if lo % 4 ≠ 3 then .ok (BitVec.ofNat 32 lo, s1)
      else match fetchBytes (trunc s.params (pc + 2#64)) 2 s1 with
      | .error e => .error e
      | .ok (hi, s2) => .ok (BitVec.ofNat 32 (lo + 65536 * hi), s2)
  else .error (raise .instructionAddressMisaligned pc)

/-- Fetch and decode: the exceptions of the fetch come first (60_exceptions.md R156). -/
def fetchInstr (s : State) : Except Stop (Instr × State) :=
  match fetch s with
  | .error e => .error e
  | .ok (w, s1) =>
    match decodeBytes (bytesOfWord w) with
    | .ok (i, _) => .ok (i, s1)
    | .error why => .error (.refused (.notDecoded why w))

end Sys2Proof.Machine
end

