-- ==== Sys2Proof/Machine/Env.lean ====
section
/-! DEFINITION. The environment actions of 20_memory.md R52, and whose turn it is. -/

namespace Sys2Proof.Machine

/-- `Load(h, va, n)`: translate, then read (20_memory.md R52, R65). -/
def envLoad (va : Word) (n : Nat) (s : State) : Except Stop State :=
  if s.params.dataEndian = .big then .error (.refused .bigEndian)
  else match translate .load (trunc s.params va) s with
    | .error e => .error e
    | .ok (pa, s1) =>
      if inPAddr s.params pa n then
        .ok { s1 with hart := { s1.hart with lastLoad := some (memRead s1 pa n) } }
      else .error (.fault (.noSuchAddress pa n))

/-- `Store(h, va, n, v)`: translate, then write (20_memory.md R52, R65). -/
def envStore (va : Word) (n v : Nat) (s : State) : Except Stop State :=
  if s.params.dataEndian = .big then .error (.refused .bigEndian)
  else match translate .store (trunc s.params va) s with
    | .error e => .error e
    | .ok (pa, s1) =>
      if inPAddr s.params pa n then .ok (memWrite s1 pa n v)
      else .error (.fault (.noSuchAddress pa n))

/-- `Fetch(h)` of an instruction out of scope: it translates and reads, and nothing more
(20_memory.md R52). -/
def envFetch (s : State) : Except Stop State :=
  match fetch s with
  | .error e => .error e
  | .ok (_, s1) => .ok s1

/-- The value a write of `satp` leaves: MODE stays Bare where it is read-only zero, and ASID bits the
implementation does not hold are dropped (20_memory.md R52). -/
def legalSatp (p : Params) (v : Satp) : Satp :=
  { mode := if p.satpModeWritable then v.mode else 0
    asid := lowBits p.asidlen v.asid
    root := trunc p v.root }

/-- `WriteSatp(h, v)` (20_memory.md R52): nothing is fenced or invalidated. A write in a mode that may
not access `satp`, a change between two non-Bare modes, and a mode the machine has no scheme for are
refused (10_state.md R24, R25, decision D17). -/
def envWriteSatp (v : Satp) (s : State) : Except Stop State :=
  let new := legalSatp s.params v
  let old := s.hart.satp
  if !satpWritable s then .error (.refused (.notPermitted s.hart.priv))
  else if old.mode ≠ 0 ∧ new.mode ≠ 0 ∧ new.mode ≠ old.mode then
    .error (.refused (.satpModeChange old.mode new.mode))
  else if new.mode ≠ 0 ∧ new.mode ≠ (paramScheme s.params).modeNum then
    .error (.refused (.satpModeUnknown new.mode))
  else .ok { s with hart := { s.hart with satp := new } }

/-- `WriteSstatus(h, SUM, MXR)` (20_memory.md R52). -/
def envWriteSstatus (sum mxr : Bool) (s : State) : State :=
  { s with hart := { s.hart with sstatus := { sum := sum, mxr := mxr } } }

/-- What a data fence of `src` owes a hart of the stores in a list becomes visible to it, in the order of
the stores. -/
def seeFrom (src : Nat) (h : Hart) : List Pending → Hart
  | [] => h
  | q :: qs => seeFrom src (if q.src = src ∧ q.dst = h.id then h.seeOwed q else h) qs

/-- `DataFence(h)` (20_memory.md R52, R70): every earlier store of the moving hart is visible to every
hart. A hart that has seen an older store to a byte since it saw the newest sees the newest again; where
it saw the newest last, its view of the byte stays. None of these stores is in flight any more. -/
def envDataFence (s : State) : State :=
  { s with
    others := s.others.map fun g => seeFrom s.hart.id g s.inFlight
    inFlight := s.inFlight.filter fun q => decide (q.src ≠ s.hart.id) }

/-- `SendIPI(h, dest)` (20_memory.md R52, 60_exceptions.md R160). -/
def envSendIpi (dest : Nat) (s : State) : Except Stop State :=
  if s.hart.id = dest ∨ s.others.any (fun g => decide (g.id = dest)) then
    .ok { s with ipis := s.ipis ++ [{ src := s.hart.id, dst := dest }] }
  else .error (.refused (.noSuchHart dest))

/-- The privilege mode changes; a hart without U-mode has none to enter (10_state.md R29). -/
def envSetPriv (m : Priv) (s : State) : Except Stop State :=
  if m = .U ∧ s.params.hasUserMode = false then .error (.refused .noUserMode)
  else .ok { s with hart := { s.hart with priv := m } }

/-- `TakeIPI(h)` (20_memory.md R52, 60_exceptions.md R160): an interrupt sent to this hart is taken,
and the hart starts its handler. Where the handler starts and in which mode is in no source: the turn
brings both. DESIGN CHOICE: two sends to one hart are two pending interrupts, and each take removes the
older one only (notes/assumptions/22.md). -/
def envTakeIpi (pc : Word) (m : Priv) (s : State) : Except Stop State :=
  if s.ipis.any (fun q => decide (q.dst = s.hart.id)) then
    envSetPriv m (setPc { s with ipis := s.ipis.eraseP fun q => decide (q.dst = s.hart.id) } pc)
  else .error (.refused (.noPendingIpi s.hart.id))

/-- A store in flight to the moving hart becomes visible to it (10_state.md R34, decision D15). It may do
so in any order and more than once, for R69 admits every `Visible` (notes/assumptions/20.md). -/
def envObserve (k : Nat) (s : State) : Except Stop State :=
  match s.inFlight[k]? with
  | some q =>
    if q.dst = s.hart.id then
      .ok { s with
        hart := s.hart.see q.pa (q.bytes.map PendingByte.val), inFlight := markSeen q k s.inFlight }
    else .error (.refused (.nothingInFlight k))
  | none => .error (.refused (.nothingInFlight k))

/-- A store of another agent becomes visible to the moving hart (10_state.md R34). DESIGN CHOICE: in one
step, whole, whatever its width and alignment; a store that arrives in parts is several of these
actions (20_memory.md R53; notes/assumptions/30.md). -/
def envAgentStore (pa n v : Nat) (s : State) : Except Stop State :=
  if inPAddr s.params pa n then
    .ok { s with hart := s.hart.see pa (leBytes n v), written := s.written ++ [(pa, n)] }
  else .error (.fault (.noSuchAddress pa n))

/-- mstatus.TVM is written, in M-mode only (10_state.md R28). -/
def envSetTvm (v : Bool) (s : State) : Except Stop State :=
  if s.hart.priv = .M then .ok (setTvm s v) else .error (.refused (.notPermitted s.hart.priv))

/-- One environment action of the moving hart (20_memory.md R52). -/
def envAct (a : EnvAct) (s : State) : Except Stop State :=
  match a with
  | .fetch => envFetch s
  | .store va n v => envStore va n v s
  | .load va n => envLoad va n s
  | .writeSatp v => envWriteSatp v s
  | .writeSstatus sum mxr => .ok (envWriteSstatus sum mxr s)
  | .dataFence => .ok (envDataFence s)
  | .sendIpi dest => envSendIpi dest s
  | .takeIpi pc m => envTakeIpi pc m s
  | .observe k => envObserve k s
  | .agentStore pa n v => envAgentStore pa n v s
  | .setReg r v => .ok (setX s r v)
  | .setPc v => .ok (setPc s v)
  | .setPriv m => envSetPriv m s
  | .setTvm v => envSetTvm v s
  | .retire => .ok (retire s)

/-- Whose turn it is: the head of the agenda is taken off and its hart becomes the moving one, or,
when the agenda is empty, the hart that moved last runs an instruction. A new step begins. -/
def nextTurn (s : State) : Except Stop (Option EnvAct × State) :=
  match s.agenda with
  | [] => .ok (none, tick s)
  | .instr h :: rest =>
    match switchTo h { s with agenda := rest } with
    | .ok s1 => .ok (none, tick s1)
    | .error e => .error e
  | .env h a :: rest =>
    match switchTo h { s with agenda := rest } with
    | .ok s1 => .ok (some a, tick s1)
    | .error e => .error e

/-- Where the fetch of the next step would read its word: the physical address of `pc`, when the
fetch gets that far. -/
def fetchAddress (s : State) : Nat :=
  match translate .execute (getPc s) (tick s) with
  | .ok (pa, _) => pa
  | .error _ => (getPc s).toNat

/-- Place an instruction word where the next step of the hart that moved last fetches it: the agenda
is empty, so that hart's next step is an instruction, and no store is remembered that would make the
word self-modified code (notes/assumptions/19.md). -/
def placeWord (s : State) (w : BitVec 32) : State :=
  let s0 := { s with agenda := [], written := [] }
  { s0 with hart := s0.hart.see (fetchAddress s0) (bytesOfWord w) }

end Sys2Proof.Machine
end

