-- ==== Sys2Proof/Machine/Step.lean ====
section
/-! DEFINITION. One step of the machine: a turn is taken, and it is an environment action or an
instruction. -/

namespace Sys2Proof.Machine

/-- One step (10_state.md R35): one instruction of one hart, or one environment action. -/
def step (s : State) : Host.Outcome State Fault Refusal :=
  match nextTurn s with
  | .error e => e.outcome
  | .ok (some a, s1) => outcomeOf (envAct a s1)
  | .ok (none, s1) =>
    match fetchInstr s1 with
    | .error e => e.outcome
    | .ok (i, s2) => exec i s2

/-- The state with the instruction word `w` (of `nbits` bits, the bits above zero) where the next
step fetches. -/
def State.withFetchWord (s : State) (nbits w : Nat) : State :=
  placeWord s (BitVec.ofNat 32 (w % 2 ^ nbits))

end Sys2Proof.Machine
end

