-- ==== Sys2Proof/Machine/Asm.lean ====
section
/-! DEFINITION. The assembler's spelling of the instruction (30_encoding.md R117, R118). -/

namespace Sys2Proof.Machine

/-- The register names, x0 first (10_state.md R20). -/
def regNames : List String :=
  ["x0", "x1", "x2", "x3", "x4", "x5", "x6", "x7", "x8", "x9", "x10", "x11", "x12", "x13", "x14",
    "x15"] ++
  ["x16", "x17", "x18", "x19", "x20", "x21", "x22", "x23", "x24", "x25", "x26", "x27", "x28",
    "x29", "x30", "x31"]

/-- The aliases in the same order (10_state.md R20). -/
def aliasNames : List String :=
  ["zero", "ra", "sp", "gp", "tp", "t0", "t1", "t2", "s0", "s1", "a0", "a1", "a2", "a3", "a4",
    "a5"] ++
  ["a6", "a7", "s2", "s3", "s4", "s5", "s6", "s7", "s8", "s9", "s10", "s11", "t3", "t4", "t5",
    "t6"]

/-- The register a name stands for; `fp` is x8 too (10_state.md R20). -/
def regOf (name : String) : Option Reg :=
  match regNames.idxOf? name with
  | some n => some (BitVec.ofNat 5 n)
  | none =>
    match aliasNames.idxOf? name with
    | some n => some (BitVec.ofNat 5 n)
    | none => if name = "fp" then some 8#5 else none

/-- A spelling of a register: its number after an x, its alias, or `fp` for x8 (10_state.md R20). -/
def IsNameOf (name : String) (r : Reg) : Prop :=
  regNames[r.toNat]? = some name ∨ aliasNames[r.toNat]? = some name ∨ (name = "fp" ∧ r = 8#5)

/-- Why a line is not transcribed. -/
inductive AsmError where
  | unknownMnemonic
  | unknownRegister
  /-- `sfence.vma rs1`: not every assembler accepts it (30_encoding.md R118) -/
  | oneOperand
  | tooManyOperands
  deriving DecidableEq, Repr

/-- Transcribe one line: `sfence.vma rs1, rs2`, or with no operands the full fence
(30_encoding.md R117, R118). -/
def assemble (mnemonic : String) (operands : List String) : Except AsmError Instr :=
  if mnemonic ≠ "sfence.vma" then .error .unknownMnemonic
  else match operands with
    | [] => .ok (.sfenceVma 0#5 0#5)
    | [_] => .error .oneOperand
    | [a, b] =>
      match regOf a, regOf b with
      | some rs1, some rs2 => .ok (.sfenceVma rs1 rs2)
      | _, _ => .error .unknownRegister
    | _ => .error .tooManyOperands

end Sys2Proof.Machine
end

