-- ==== Sys2Proof/Machine/Csr.lean ====
section
/-! DEFINITION. The control registers as the words software sees: numbers, bit positions and codes.
All of it is general knowledge (10_state.md R24, R27, R28, R29; 93_implementation_defined.md G4, G8,
G9) and no rule of the machine depends on it. -/

namespace Sys2Proof.Machine

/-- The control registers the spec names. -/
inductive Csr where
  | satp
  | sstatus
  | mstatus
  deriving DecidableEq, Repr

/-- The register numbers. -/
def csrNumber : Csr → Nat
  | .satp => 0x180
  | .sstatus => 0x100
  | .mstatus => 0x300

/-- `satp` as a word (10_state.md R24). -/
def satpWord : XLen → Satp → Word
  | .rv32, v => BitVec.ofNat 64
      (v.mode % 2 * 2 ^ 31 + v.asid.toNat % 2 ^ 9 * 2 ^ 22 + v.root.toNat % 2 ^ 22)
  | .rv64, v => BitVec.ofNat 64
      (v.mode % 2 ^ 4 * 2 ^ 60 + v.asid.toNat % 2 ^ 16 * 2 ^ 44 + v.root.toNat % 2 ^ 44)

/-- The record a `satp` word stands for (10_state.md R24). -/
def satpOfWord : XLen → Word → Satp
  | .rv32, w =>
    { mode := w.toNat / 2 ^ 31 % 2
      asid := BitVec.ofNat 64 (w.toNat / 2 ^ 22 % 2 ^ 9)
      root := BitVec.ofNat 64 (w.toNat % 2 ^ 22) }
  | .rv64, w =>
    { mode := w.toNat / 2 ^ 60 % 2 ^ 4
      asid := BitVec.ofNat 64 (w.toNat / 2 ^ 44 % 2 ^ 16)
      root := BitVec.ofNat 64 (w.toNat % 2 ^ 44) }

/-- One bit of a word. -/
def bitAt (n : Nat) (b : Bool) : Word := if b then BitVec.ofNat 64 (2 ^ n) else 0#64

/-- `sstatus` as a word, its two modelled fields: SUM is bit 18 and MXR bit 19 (10_state.md R27). -/
def sstatusWord (v : Sstatus) : Word := bitAt 18 v.sum ||| bitAt 19 v.mxr

/-- `mstatus` as a word, its modelled fields: TVM is bit 20, and `sstatus` is a restricted view of
the register (10_state.md R27, R28). -/
def mstatusWord (v : Sstatus) (m : Mstatus) : Word := sstatusWord v ||| bitAt 20 m.tvm

/-- A control register of a hart, as software reads it. -/
def csrWord (p : Params) (h : Hart) : Csr → Word
  | .satp => satpWord p.xlen h.satp
  | .sstatus => sstatusWord h.sstatus
  | .mstatus => mstatusWord h.sstatus { tvm := p.hasTVM && h.mstatus.tvm }

/-- The encoding of the privilege modes (10_state.md R29). -/
def privCode : Priv → Nat
  | .U => 0
  | .S => 1
  | .M => 3

end Sys2Proof.Machine
end

