-- ==== Sys2Proof/Machine/Flags.lean ====
section
/-! DEFINITION. Status flags. The hart has none (10_state.md R23). -/

namespace Sys2Proof.Machine

/-- The status flags and condition codes of the hart: there are none (10_state.md R23). -/
inductive Flag where
  deriving DecidableEq, Repr

/-- The flags an instruction writes: none (10_state.md R23, 40_sfence_vma.md R141). -/
def flagsWritten : Instr → List Flag
  | .sfenceVma _ _ => []

end Sys2Proof.Machine
end

