-- ==== Sys2Proof/Safety.lean ====
section
/-! DEFINITION. The terms claims use: the harts of a state, what must hold of every state, when
SFENCE.VMA executes, and the fences the spec's recipes call for. -/

namespace Sys2Proof.Machine

/-- Every hart of the machine, the moving one first. -/
def State.harts (s : State) : List Hart := s.hart :: s.others

/-- Where SFENCE.VMA executes normally: in M-mode, or in S-mode with TVM clear or absent, on a hart
that does not trap it for being Bare-only (60_exceptions.md R151, R152). Written apart from
`sfenceIllegal`, which is the check the meaning makes. -/
def sfenceExecutes (s : State) : Prop :=
  (s.hart.priv = .M ∨ (s.hart.priv = .S ∧ (s.params.hasTVM = false ∨ s.hart.mstatus.tvm = false))) ∧
    (s.params.satpModeWritable = true ∨ s.params.bareOnlySfence = .nop)

/-- Every view of memory the hart has had is in canonical form. -/
def Hart.memWf (h : Hart) : Bool := h.mem.wf && h.past.all fun sn => sn.mem.wf

/-- Every hart's memory is in canonical form. -/
def State.memWf (s : State) : Bool := s.harts.all Hart.memWf

/-- A hart's history has one snapshot for every past time, and no fence is from the future
(10_state.md R34 to R37). -/
def Hart.timed (now : Nat) (h : Hart) : Bool :=
  decide (h.past.length = now) && h.fenceLog.all fun f => decide (f.time ≤ now)

/-- Every hart's history fits the step index. -/
def State.timed (s : State) : Bool := s.harts.all (Hart.timed s.now)

/-- A `satp` value the hart can hold: Bare, or the scheme's mode where MODE is writable, and an ASID
of ASIDLEN bits (10_state.md R24, R26; decision D17). -/
def satpLegal (p : Params) (v : Satp) : Bool :=
  (decide (v.mode = 0) || (p.satpModeWritable && decide (v.mode = (paramScheme p).modeNum))) &&
    decide (v.asid = lowBits p.asidlen v.asid)

/-- A record a completed SFENCE.VMA can leave (10_state.md R36, 40_sfence_vma.md R137, R140). -/
def fenceRecLegal (p : Params) (f : FenceRec) : Bool :=
  fenceTakesEffect p f.va &&
    match f.asid with
    | none => true
    | some a => decide (a = lowBits p.asidlen a)

/-- What a hart of these parameters always satisfies: a legal `satp`, now and in the past, a legal
fence log, no U-mode where there is none, TVM clear where there is none, and an XLEN-bit `pc`
(10_state.md R22, R24, R26, R28, R29, R36). -/
def Hart.legal (p : Params) (h : Hart) : Bool :=
  satpLegal p h.satp && (h.past.all fun sn => satpLegal p sn.satp) &&
    (h.fenceLog.all (fenceRecLegal p)) && (decide (h.priv ≠ .U) || p.hasUserMode) &&
    (!h.mstatus.tvm || p.hasTVM) && decide (h.pc = trunc p h.pc)

/-- Every hart is legal. -/
def State.legal (s : State) : Bool := s.harts.all (Hart.legal s.params)

/-- The hart as it was at a time of its history, its fence log, which only later times extend,
aside. -/
def Hart.rewind (h : Hart) (t : Nat) : Hart :=
  match h.timeline[t]? with
  | some sn => { h with satp := sn.satp, mem := sn.mem, past := h.timeline.take t }
  | none => h

/-- The byte that a store has for an address, if it goes from `src` to `dst` and covers the address. -/
def Pending.byteFor (src dst a : Nat) (q : Pending) : Option PendingByte :=
  if q.src = src ∧ q.dst = dst ∧ q.pa ≤ a then q.bytes[a - q.pa]? else none

/-- The byte at `a` that the newest of a list of stores from `src` to `dst` has for it. -/
def newestByte (src dst a : Nat) (l : List Pending) : Option Byte :=
  ((l.filterMap (Pending.byteFor src dst a)).getLast?).map PendingByte.val

/-- The byte at `a` that a data fence of `src` delivers to `dst`: the newest one it owes. -/
def owedByte (src dst a : Nat) (l : List Pending) : Option Byte :=
  (((l.filterMap (Pending.byteFor src dst a)).filter PendingByte.owed).getLast?).map PendingByte.val

/-- The byte at `a` that the hart `g` would see after a data fence of `src`. -/
def settledByte (s : State) (src : Nat) (g : Hart) (a : Nat) : Byte :=
  (owedByte src g.id a s.inFlight).getD (g.mem.read a)

/-- The fence 70_reset_and_hazards.md R187 and R188 call for after a leaf PTE was modified: an address
in the page, and the ASID unless a PTE of the path had its G bit set. -/
def leafFence (time : Nat) (va asid : Word) (pathGlobal : Bool) : FenceRec :=
  { time := time, va := some va, asid := if pathGlobal then none else some asid }

/-- The fence R186 and R187 call for after a non-leaf PTE was modified: `rs1 = x0`. -/
def nonleafFence (time : Nat) (asid : Word) (pathGlobal : Bool) : FenceRec :=
  { time := time, va := none, asid := if pathGlobal then none else some asid }

end Sys2Proof.Machine
end

