-- ==== Sys2Proof/Certificates/Slice0/Obligations.lean ====
section
/-! DEFINITION. The statements for the provers, from the numbered rules of spec/. -/

open Sys2Proof Sys2Proof.Machine

/-! Encoding. The bit positions are the spec's general knowledge G1, G2 (30_encoding.md; log entry 8). -/

/-- Every word decodes to an instruction exactly when it is that instruction's encoding: no bit is
dropped, and each of the 1024 words has one meaning (30_encoding.md section 1, G1; log entry 8). -/
def Obligations.DecodeInvertsEncode : Prop :=
  ∀ (w : BitVec 32) (i : Instr), decodeWord w = .ok i ↔ w = encode i

/-- The bytes of an instruction decode to it and to the rest of the list, whatever follows; and
bytes that decode are the bytes of that instruction, followed by the rest (log entry 8). -/
def Obligations.DecodeBytesInvertsEncodeBytes : Prop :=
  ∀ (bs rest : List Byte) (i : Instr),
    decodeBytes bs = .ok (i, rest) ↔ bs = encodeBytes i ++ rest

/-- The mask test accepts exactly the words whose fields are SFENCE.VMA's (30_encoding.md section 1;
log entry 8). -/
def Obligations.MaskTestIsTheFieldTest : Prop :=
  ∀ w : BitVec 32, w &&& sfenceMask = sfenceMatch ↔ wordWellFormed w = true

/-- A word with the function codes of SFENCE.VMA and rd not zero is reserved and not decoded
(30_encoding.md section 4, G2, decision D21; log entry 35). -/
def Obligations.NonzeroRdIsReserved : Prop :=
  ∀ w : BitVec 32, opcodeOk w = true → funct3Ok w = true → funct7Ok w = true → rdOk w = false →
    decodeWord w = .error .reservedRd

/-- The words of the table of 30_encoding.md section 4 are rejected, each by its name, and three words
of 95_test_vectors.md T-ENC are the instruction (G20; log entry 8). -/
def Obligations.NeighbourWordsAreRejected : Prop :=
  decodeWord 0x00000073#32 = .error .ecall ∧
  decodeWord 0x00100073#32 = .error .ebreak ∧
  decodeWord 0x10200073#32 = .error .sret ∧
  decodeWord 0x10500073#32 = .error .wfi ∧
  decodeWord 0x30200073#32 = .error .mret ∧
  decodeWord 0x16000073#32 = .error .svinval ∧
  decodeWord 0x18000073#32 = .error .svinval ∧
  decodeWord 0x18100073#32 = .error .svinval ∧
  decodeWord 0x22000073#32 = .error .hypervisor ∧
  decodeWord 0x62000073#32 = .error .hypervisor ∧
  decodeWord 0x12001073#32 = .error .systemFunct3 ∧
  decodeWord 0x120000F3#32 = .error .reservedRd ∧
  decodeWord 0x12B50073#32 = .ok (.sfenceVma 10#5 11#5) ∧
  decodeWord 0x12628073#32 = .ok (.sfenceVma 5#5 6#5) ∧
  decodeWord 0x13FF8073#32 = .ok (.sfenceVma 31#5 31#5)

/-! Registers and operands. -/

/-- Reading a register after writing it gives the written value cut to XLEN bits, and every other
register reads as before; x0 reads as zero and discards the write (10_state.md section 1,
decision D2; log entry 1). -/
def Obligations.RegisterReadAfterWrite : Prop :=
  ∀ (s : State) (r q : Reg) (v : Word),
    getX (setX s r v) q =
      if q = 0#5 then 0#64 else if q = r then trunc s.params v else getX s q

/-- Whether an operand is taken is decided by the 5-bit field, not by the value of the register: x0
gives none, and any other register gives some value, zero included (00_scope.md R9). -/
def Obligations.OperandsAreSelectedByTheField : Prop :=
  ∀ (s : State) (r : Reg),
    (vaSel r s = none ↔ r = 0#5) ∧ (asidSel r s = none ↔ r = 0#5) ∧
    (r ≠ 0#5 → vaSel r s = some (getX s r)) ∧
    (r ≠ 0#5 → getX s r = 0#64 → vaSel r s = some 0#64 ∧ asidSel r s = some 0#64)

/-- The ASID operand is the low ASIDLEN bits of the register: two values that agree there give the same
operand, and the operand's own number is the value modulo 2^ASIDLEN; with ASIDLEN = 0 it is zero
(40_sfence_vma.md section 3). -/
def Obligations.AsidOperandIgnoresHighBits : Prop :=
  ∀ (s : State) (r : Reg) (v v' : Word), r ≠ 0#5 →
    (trunc s.params v).toNat % 2 ^ s.params.asidlen =
      (trunc s.params v').toNat % 2 ^ s.params.asidlen →
    asidSel r (setX s r v) = asidSel r (setX s r v') ∧
    (∃ a, asidSel r (setX s r v) = some a ∧
      a.toNat = (trunc s.params v).toNat % 2 ^ s.params.asidlen) ∧
    (s.params.asidlen = 0 → asidSel r (setX s r v) = some 0#64)

/-! The instruction. -/

/-- COMPLETION. Where it executes, SFENCE.VMA gives the next state in which one record, with the time
and the two operands, ends the fence log (none when the address operand is not a valid virtual
address), `pc` has moved by 4 modulo 2^XLEN, the instruction is counted in `instret`, and nothing else
differs (40_sfence_vma.md section 5; the modes, the advance of `pc` and the counter are decisions D5, D3
and general knowledge G24; log entries 9, 10, 39). -/
def Obligations.SfenceVmaCompletes : Prop :=
  ∀ (rs1 rs2 : Reg) (s : State), sfenceExecutes s →
    exec (.sfenceVma rs1 rs2) s = .next
      { s with
        hart := { s.hart with
          pc := trunc s.params (trunc s.params s.hart.pc + 4#64)
          instret := s.hart.instret + 1#64
          fenceLog := s.hart.fenceLog ++
            if rs1 ≠ 0#5 ∧ (paramScheme s.params).validVA (getX s rs1) = false then []
            else [{ time := s.now
                    va := if rs1 = 0#5 then none else some (getX s rs1)
                    asid := if rs2 = 0#5 then none
                      else some (lowBits s.params.asidlen (getX s rs2)) }] } }

/-- Where it does not execute, SFENCE.VMA raises an illegal-instruction exception with its own word:
in U-mode, in S-mode with TVM, and on a Bare-only hart that traps it; these are the only outcomes
beside a next state (60_exceptions.md section 2, decisions D5, D7; log entries 9, 11). -/
def Obligations.SfenceVmaTrapsOtherwise : Prop :=
  ∀ (rs1 rs2 : Reg) (s : State), ¬ sfenceExecutes s →
    exec (.sfenceVma rs1 rs2) s =
      .fault (.trap .illegalInstruction ((encode (.sfenceVma rs1 rs2)).zeroExtend 64))

/-- An address operand that is not a valid virtual address: where the instruction executes it has no
effect and raises no exception, nothing is appended to the fence log, and `pc` and `instret` advance as
after any instruction; and a record with such an address would subsume nothing whose range holds only
valid addresses, which the spec infers (40_sfence_vma.md section 4; the modes in which it executes, the
advance of `pc` and the counter are decisions D5, D3 and general knowledge G24, log entries 9, 10,
39). -/
def Obligations.InvalidAddressHasNoEffect : Prop :=
  ∀ (rs1 rs2 : Reg) (s : State), rs1 ≠ 0#5 →
    (paramScheme s.params).validVA (getX s rs1) = false →
    (sfenceExecutes s → exec (.sfenceVma rs1 rs2) s = .next (retire (advancePc s))) ∧
    (retire (advancePc s)).hart.fenceLog = s.hart.fenceLog ∧
    (∀ (o : Observation) (time : Nat) (asid : Option Word),
      (∀ v, inRange (paramScheme s.params) o v = true → (paramScheme s.params).validVA v = true) →
      subsumes (paramScheme s.params) { time := time, va := some (getX s rs1), asid := asid } o =
        false)

/-- SFENCE.VMA raises no exception on account of its operand values: whether it completes is the same
for every value of every register, and the one fault it can answer is an illegal-instruction
exception (60_exceptions.md R153). -/
def Obligations.OperandValuesRaiseNothing : Prop :=
  ∀ (rs1 rs2 r : Reg) (v : Word) (s : State),
    ((∃ t, exec (.sfenceVma rs1 rs2) s = .next t) ↔
      (∃ t, exec (.sfenceVma rs1 rs2) (setX s r v) = .next t)) ∧
    (∀ f, exec (.sfenceVma rs1 rs2) s = .fault f →
      f = .trap .illegalInstruction ((encode (.sfenceVma rs1 rs2)).zeroExtend 64)) ∧
    (∀ f, exec (.sfenceVma rs1 rs2) s ≠ .refused f)

/-- FRAME. A completed SFENCE.VMA leaves every register, every control register, the privilege mode,
every byte of memory, the histories, every other hart and everything else of the machine as it was;
the fence log it leaves extends the old one by at most one record, of this moment, and `instret` counts
it; it writes no flag (40_sfence_vma.md section 6; the counter is log entry 39). -/
def Obligations.SfenceVmaFrame : Prop :=
  ∀ (rs1 rs2 : Reg) (s t : State), exec (.sfenceVma rs1 rs2) s = .next t →
    (∀ r, getX t r = getX s r) ∧ t.hart.priv = s.hart.priv ∧ t.hart.satp = s.hart.satp ∧
    t.hart.sstatus = s.hart.sstatus ∧ t.hart.mstatus = s.hart.mstatus ∧
    (∀ a, t.hart.mem.read a = s.hart.mem.read a) ∧ t.hart.mem = s.hart.mem ∧
    t.hart.past = s.hart.past ∧ t.hart.id = s.hart.id ∧ t.hart.x = s.hart.x ∧
    t.hart.initialObs = s.hart.initialObs ∧ t.hart.lastLoad = s.hart.lastLoad ∧
    t.hart.instret = s.hart.instret + 1#64 ∧
    t.others = s.others ∧ t.params = s.params ∧ t.now = s.now ∧ t.agenda = s.agenda ∧
    t.inFlight = s.inFlight ∧ t.ipis = s.ipis ∧ t.written = s.written ∧ t.draws = s.draws ∧
    (t.hart.fenceLog = s.hart.fenceLog ∨
      ∃ f, t.hart.fenceLog = s.hart.fenceLog ++ [f] ∧ f.time = s.now) ∧
    flagsWritten (.sfenceVma rs1 rs2) = []

/-- SFENCE.VMA reads at most the two registers its fields name, and a field that names x0 reads none:
changing any other register changes nothing but that register (10_state.md section 1). -/
def Obligations.OnlyNamedRegistersAreRead : Prop :=
  ∀ (rs1 rs2 r : Reg) (v : Word) (s : State), r ≠ rs1 → r ≠ rs2 →
    (∀ t, exec (.sfenceVma rs1 rs2) s = .next t →
      exec (.sfenceVma rs1 rs2) (setX s r v) = .next (setX t r v)) ∧
    (∀ f, exec (.sfenceVma rs1 rs2) s = .fault f →
      exec (.sfenceVma rs1 rs2) (setX s r v) = .fault f)

/-- A Bare-only implementation may trap SFENCE.VMA or not: with the parameter `trap` it raises an
illegal-instruction exception in every mode; with `nop` it runs as otherwise, and the record has no
observable effect, because a hart that was always Bare and left reset with no observation has none it
could use (60_exceptions.md R152). -/
def Obligations.BareOnlyTrapsOrHasNoEffect : Prop :=
  ∀ (rs1 rs2 : Reg) (s : State), s.params.satpModeWritable = false →
    (s.params.bareOnlySfence = .trap → exec (.sfenceVma rs1 rs2) s =
      .fault (.trap .illegalInstruction ((encode (.sfenceVma rs1 rs2)).zeroExtend 64))) ∧
    (s.params.bareOnlySfence = .nop → privilegeForbids s = false →
      exec (.sfenceVma rs1 rs2) s =
        .next (retire (advancePc (recordFence (vaSel rs1 s) (asidSel rs2 s) s)))) ∧
    (s.legal = true → s.hart.initialObs = [] → ∀ o n, ¬ Usable s.params s.hart o n)

/-! What a fence orders and invalidates. -/

/-- The full fence: after it, whatever implicit read the hart may use, of any level and any address
space, global mappings included, returns a value its slot held in the hart's view at or after the
fence, so every store visible before the fence is ordered before it and every older entry is gone
(40_sfence_vma.md section 2; implicit writes are a parameter, decision D16; log entry 18). -/
def Obligations.FullFenceOrdersAndInvalidatesAll : Prop :=
  ∀ (s : State), sfenceExecutes s → 0 < s.now →
    ∃ t, exec (.sfenceVma 0#5 0#5) s = .next t ∧
      ∀ o n, s.now ≤ n → Usable t.params t.hart o n →
        s.now ≤ o.born ∧ heldAt t.params t.hart o

/-- The fence of one address space: the same for every non-global implicit read whose ASID is the one
in rs2; and the log it leaves ends the use of no observation that was usable before it and is of
another address space or global (40_sfence_vma.md section 2, decision D8; log entry 28). -/
def Obligations.AsidFenceCoversOneAddressSpace : Prop :=
  ∀ (rs2 : Reg) (s : State), rs2 ≠ 0#5 → sfenceExecutes s → 0 < s.now →
    ∃ t, exec (.sfenceVma 0#5 rs2) s = .next t ∧
      (∀ o n, s.now ≤ n → Usable t.params t.hart o n →
        o.asid = asidOf s.params (getX s rs2) → o.gpath = false →
        s.now ≤ o.born ∧ heldAt t.params t.hart o) ∧
      (∀ o, Usable s.params s.hart o s.now →
        (o.asid ≠ asidOf s.params (getX s rs2) ∨ o.gpath = true) →
        unfenced (paramScheme t.params) t.hart.fenceLog o s.now = true)

/-- The fence of one address: every terminal implicit read whose range contains the address, in every
address space, global mappings included, returns a value held at or after the fence; the log it
leaves ends the use of no entry that was usable before it and is non-leaf or does not contain the
address (40_sfence_vma.md sections 2 and 4, decisions D8, D10; log entries 28, 29). -/
def Obligations.AddressFenceCoversOneMapping : Prop :=
  ∀ (rs1 : Reg) (s : State), rs1 ≠ 0#5 → sfenceExecutes s → 0 < s.now →
    (paramScheme s.params).validVA (getX s rs1) = true →
    ∃ t, exec (.sfenceVma rs1 0#5) s = .next t ∧
      (∀ o n, s.now ≤ n → Usable t.params t.hart o n →
        terminal (paramScheme s.params) o = true →
        inRange (paramScheme s.params) o (getX s rs1) = true →
        s.now ≤ o.born ∧ heldAt t.params t.hart o) ∧
      (∀ o, Usable s.params s.hart o s.now →
        (obsClass (paramScheme s.params) o = .nonleaf ∨
          inRange (paramScheme s.params) o (getX s rs1) = false) →
        unfenced (paramScheme t.params) t.hart.fenceLog o s.now = true)

/-- The fence of one address in one address space: every terminal, non-global implicit read whose range
contains the address and whose ASID is the one in rs2 returns a value held at or after the fence; the
log it leaves ends the use of no entry that was usable before it and is non-leaf, global, of another
address space, or does not contain the address (40_sfence_vma.md sections 2 and 4, decisions D8, D10;
log entries 28, 29). -/
def Obligations.AddressAsidFenceCoversOneMapping : Prop :=
  ∀ (rs1 rs2 : Reg) (s : State), rs1 ≠ 0#5 → rs2 ≠ 0#5 → sfenceExecutes s → 0 < s.now →
    (paramScheme s.params).validVA (getX s rs1) = true →
    ∃ t, exec (.sfenceVma rs1 rs2) s = .next t ∧
      (∀ o n, s.now ≤ n → Usable t.params t.hart o n →
        terminal (paramScheme s.params) o = true →
        inRange (paramScheme s.params) o (getX s rs1) = true →
        o.asid = asidOf s.params (getX s rs2) → o.gpath = false →
        s.now ≤ o.born ∧ heldAt t.params t.hart o) ∧
      (∀ o, Usable s.params s.hart o s.now →
        (obsClass (paramScheme s.params) o = .nonleaf ∨ o.gpath = true ∨
          o.asid ≠ asidOf s.params (getX s rs2) ∨
          inRange (paramScheme s.params) o (getX s rs1) = false) →
        unfenced (paramScheme t.params) t.hart.fenceLog o s.now = true)

/-- What is fenced stays fenced: an observation older than a fence of the hart that subsumes it is
usable at no later time, after any number of further steps (40_sfence_vma.md section 2, "Invalidation
in general"; decision D9, log entry 27). -/
def Obligations.FencedStaysFenced : Prop :=
  ∀ (k : Nat) (s t : State) (f : FenceRec) (o : Observation) (g : Hart),
    f ∈ s.hart.fenceLog → subsumes (paramScheme s.params) f o = true → o.born < f.time →
    (s.harts.map (·.id)).Nodup → core.run k s = .next t →
    g ∈ t.harts → g.id = s.hart.id →
    ∀ n, f.time ≤ n → ¬ Usable t.params g o n

/-- Over-fencing is always legal: a log under which less is unfenced lets a hart use nothing that the
first log does not; so a wider fence only removes translations the hart was free never to use
(40_sfence_vma.md R139). -/
def Obligations.OverFencingOnlyRemoves : Prop :=
  ∀ (p : Params) (h : Hart) (log : List FenceRec),
    (∀ o n, unfenced (paramScheme p) log o n = true →
      unfenced (paramScheme p) h.fenceLog o n = true) →
    ∀ o n, Usable p { h with fenceLog := log } o n → Usable p h o n

/-- The fence the recipes call for after a PTE was modified covers what the old PTE left behind: for a
leaf, every terminal observation that covers the address, and for a non-leaf, every observation, of
the address space, global ones too when the path had a G bit (70_reset_and_hazards.md section 3;
decision D10, log entry 29). -/
def Obligations.RecipeFencesAreSufficient : Prop :=
  ∀ (sc : Scheme) (time : Nat) (va asid : Word) (g : Bool) (o : Observation),
    (o.gpath = true → g = true) → (o.asid = asid ∨ g = true) →
    (terminal sc o = true → inRange sc o va = true →
      subsumes sc (leafFence time va asid g) o = true) ∧
    subsumes sc (nonleafFence time asid g) o = true

/-- Recycling an ASID, in the source's two forms: when `satp` has pointed to the new table whenever it
carried the recycled ASID since the fence, then after `sfence.vma x0, r` every usable non-global
observation of that ASID dates from the fence or later; one of the root level was read from the new root
table, and one of a lower level from a table that such an observation of the level above points to
(70_reset_and_hazards.md section 3). -/
def Obligations.RecycledAsidReadsTheNewTable : Prop :=
  ∀ (rs2 : Reg) (s : State) (new : Satp) (h : Hart) (n : Nat) (o : Observation),
    rs2 ≠ 0#5 → sfenceExecutes s → 0 < s.now →
    (∃ t, exec (.sfenceVma 0#5 rs2) s = .next t ∧ ∃ later, h.fenceLog = t.hart.fenceLog ++ later) →
    (∀ b sn, s.now ≤ b → h.timeline[b]? = some sn → sn.satp.asid = asidOf s.params (getX s rs2) →
      sn.satp = new) →
    s.now ≤ n → Usable s.params h o n → o.asid = asidOf s.params (getX s rs2) → o.gpath = false →
    s.now ≤ o.born ∧
    (o.level + 1 = (paramScheme s.params).levels →
      o.slot = slotOf (paramScheme s.params) ((paramScheme s.params).rootAddr new) o.level
        o.vbase) ∧
    (o.level + 1 ≠ (paramScheme s.params).levels →
      ∃ q t, s.now ≤ t ∧ t ≤ n ∧ Usable s.params h q t ∧ s.now ≤ q.born ∧
        q.asid = asidOf s.params (getX s rs2) ∧ q.gpath = false ∧ q.level = o.level + 1 ∧
        obsClass (paramScheme s.params) q = .nonleaf ∧
        o.slot = slotOf (paramScheme s.params) ((paramScheme s.params).nextTable q.pte) o.level
          o.vbase)

/-! What a hart may use. -/

/-- Any translation valid since the last subsuming fence may be used: the observation that the walk
made entirely at a past time ends in is usable now, unless a fence since then subsumes it; and every
usable observation is at least as recent as the last fence that subsumes it (20_memory.md R57). -/
def Obligations.AnyTranslationSinceTheFenceIsUsable : Prop :=
  ∀ (p : Params) (h : Hart) (va : Word) (b n : Nat) (sn : Snap) (o : Observation),
    (paramScheme p).Wf → (paramScheme p).validVA va = true → b ≤ n →
    h.timeline[b]? = some sn → sn.satp.mode ≠ 0 →
    (newestWalk p (h.rewind b) va b = some o → unfenced (paramScheme p) h.fenceLog o n = true →
      Usable p h o n) ∧
    (∀ q f, Usable p h q n → f ∈ h.fenceLog → f.time ≤ n →
      subsumes (paramScheme p) f q = true → f.time ≤ q.born)

/-- The list the machine chooses from holds exactly the observations the rules admit, for every hart,
address and time
(20_memory.md section 7; the reference model is decision D9, log entry 27). -/
def Obligations.CandidatesAreTheAdmitted : Prop :=
  ∀ (p : Params) (h : Hart) (va : Word) (now : Nat) (o : Observation),
    (paramScheme p).Wf →
    (o ∈ candidates p h va now ↔ Candidate p h va now o)

/-- At least one translation is always admitted, the one a walk made entirely now finds: the walk always
ends, each level of it read now, and what it finds is a candidate; so no translation of a valid address
stops for want of one (20_memory.md section 7, decision D9; that the last level ends a walk is log entry
25, the history log entry 27). -/
def Obligations.NewestWalkIsACandidate : Prop :=
  ∀ (s : State) (va : Word), (paramScheme s.params).Wf → s.timed = true → s.hart.satp.mode ≠ 0 →
    (paramScheme s.params).validVA va = true →
    (∃ o, newestWalk s.params s.hart va s.now = some o ∧ o.born = s.now ∧ o ∈ candidatesNow s va) ∧
    ∀ choice acc, translateWith choice acc va s ≠ .error (.fault (.noTranslation va))

/-- Implicit reads go only to a table that `satp` points to at some time up to now, or to one that a valid
entry usable at such a time points to; and at any time, whatever the program does, each such read may be
made and its result kept until a fence subsumes it. This is the spec's reference model (decision D9, log
entry 27), not the letter of its source: by the second row of 20_memory.md R80 the entry may be of an
address space that is not the current one, and by the fourth the value read may date from before the
table was reachable (20_memory.md sections 3 and 7). -/
def Obligations.ImplicitReadsAreReachable : Prop :=
  ∀ (p : Params) (h : Hart) (o : Observation) (n : Nat),
    (h.initialObs = [] → Usable p h o n →
      (∃ (t : Nat) (sn : Snap), t ≤ n ∧ h.timeline[t]? = some sn ∧ sn.satp.mode ≠ 0 ∧
        o.slot = slotOf (paramScheme p) ((paramScheme p).rootAddr sn.satp) o.level o.vbase) ∨
      (∃ (t : Nat) (q : Observation), t ≤ n ∧ Usable p h q t ∧ (paramScheme p).vBit q.pte = true ∧
        o.slot = slotOf (paramScheme p) ((paramScheme p).nextTable q.pte) o.level o.vbase)) ∧
    (∀ t ≤ n, unfenced (paramScheme p) h.fenceLog o n = true →
      (FromRoot p h o t ∨ ∃ q, Usable p h q t ∧ FromParent p h q o t) → Usable p h o n)

/-- An implicit read may return a value older than the hart's own store to the slot, or load from it:
whatever was usable before the store or the load is usable after it, when no subsuming fence lies
between (20_memory.md R61). -/
def Obligations.AccessesEndNoTranslation : Prop :=
  ∀ (s : State) (o : Observation), s.timed = true → Usable s.params s.hart o s.now →
    (∀ pa n v, Usable s.params (memWrite (tick s) pa n v).hart o (s.now + 1)) ∧
    (∀ va n t, envLoad va n (tick s) = .ok t → Usable t.params t.hart o t.now) ∧
    (∀ va n v t, envStore va n v (tick s) = .ok t → Usable t.params t.hart o t.now)

/-- An invalid PTE may be cached like any other: a usable invalid observation that covers the address
is one the machine may pick, whatever memory holds now, and the access then raises a page fault; a
subsuming fence ends that (20_memory.md R62). -/
def Obligations.ACachedInvalidPteMayFault : Prop :=
  ∀ (s : State) (acc : Access) (va : Word) (o : Observation),
    (paramScheme s.params).Wf → (paramScheme s.params).vBit o.pte = false →
    (Usable s.params s.hart o s.now →
      inRange (paramScheme s.params) o va = true → o.asid = s.hart.satp.asid →
      translationActive s = true → s.params.dataEndian = .little →
      (paramScheme s.params).validVA va = true →
      ∃ choice, translateWith choice acc va s = .error (.fault (.trap (pageFault acc) va))) ∧
    (∀ f ∈ s.hart.fenceLog, o.born < f.time → f.time ≤ s.now →
      subsumes (paramScheme s.params) f o = true → ¬ Usable s.params s.hart o s.now)

/-- Every candidate can be picked, and what a translation answers is what some candidate gives, where
there is one: the choice is free among them and gives nothing else. Where there is none the translation
stops with `noTranslation`, which is the model's outcome and no rule's (log entry 25) (20_memory.md
section 7, decision D9; log entry 16). -/
def Obligations.TheChoiceIsFreeAmongCandidates : Prop :=
  ∀ (s : State) (acc : Access) (va : Word),
    translationActive s = true → s.params.dataEndian = .little →
    (paramScheme s.params).validVA va = true →
    (∀ o ∈ candidatesNow s va, ∃ choice, translateWith choice acc va s =
      useObservation acc va o { s with draws := s.draws + 1 }) ∧
    (∀ choice, (∃ o ∈ candidatesNow s va, translateWith choice acc va s =
        useObservation acc va o { s with draws := s.draws + 1 }) ∨
      (candidatesNow s va = [] ∧ translateWith choice acc va s =
        .error (.fault (.noTranslation va))))

/-- A translation that answers was made by the rule: untranslated, the address itself and nothing
changed; else the target of a leaf that the rules admit now and whose permissions, checked with the
present mode, SUM and MXR, allow the access, after its implicit write. An address that is not valid
raises the page fault (20_memory.md section 7, decisions D9, D16, D22, general knowledge G26; log entries
17, 18, 27). -/
def Obligations.ATranslationIsAnAdmittedOne : Prop :=
  ∀ (choice : Nat) (acc : Access) (va : Word) (s : State), (paramScheme s.params).Wf →
    (∀ pa t, translateWith choice acc va s = .ok (pa, t) →
      (translationActive s = false → pa = va.toNat ∧ t = s) ∧
      (translationActive s = true → ∃ o, Candidate s.params s.hart va s.now o ∧
        obsClass (paramScheme s.params) o = .leaf ∧
        (paramScheme s.params).check (checkedPte s.params acc o) acc s.hart.priv
          s.hart.sstatus.sum s.hart.sstatus.mxr = true ∧
        pa = (paramScheme s.params).target o.pte o.level va ∧
        t = implicitWrite acc o { s with draws := s.draws + 1 })) ∧
    (translationActive s = true → s.params.dataEndian = .little →
      (paramScheme s.params).validVA va = false →
      translateWith choice acc va s = .error (.fault (.trap (pageFault acc) va)))

/-- Implicit writes are the parameter's: where it says none, a translation leaves all memory as it was;
where it says that PTEs are updated, only the bytes of the slot of the observation the translation used
can change, they change only when the slot is in `PAddr` and still holds the observed PTE, and then they
hold the updated one. Nothing else of the machine changes but the stores in flight, the stored ranges and
the counter of choices (20_memory.md section 4, decision D16; log entries 18, 34). -/
def Obligations.ImplicitWritesAreTheParameters : Prop :=
  ∀ (choice : Nat) (acc : Access) (va : Word) (s t : State) (pa : Nat), s.memWf = true →
    translateWith choice acc va s = .ok (pa, t) →
    (s.params.implicitWrites = .absent →
      t.hart = s.hart ∧ t.inFlight = s.inFlight ∧ t.written = s.written) ∧
    ((∀ a, t.hart.mem.read a = s.hart.mem.read a) ∨
      ∃ o ∈ candidatesNow s va, pa = (paramScheme s.params).target o.pte o.level va ∧
        s.params.implicitWrites = .updatePte ∧
        inPAddr s.params o.slot (paramScheme s.params).pteSize = true ∧
        valIn s.params s.hart.mem o.slot s.now = o.pte ∧
        (∀ a, a < o.slot ∨ o.slot + (paramScheme s.params).pteSize ≤ a →
          t.hart.mem.read a = s.hart.mem.read a) ∧
        (∀ k < (paramScheme s.params).pteSize, some (t.hart.mem.read (o.slot + k)) =
          (leBytes (paramScheme s.params).pteSize
            ((paramScheme s.params).implicitUpdate o.pte acc))[k]?)) ∧
    t.hart = { s.hart with mem := t.hart.mem } ∧ t.others = s.others ∧ t.params = s.params ∧
    t.now = s.now ∧ t.agenda = s.agenda ∧ t.ipis = s.ipis

/-! Control registers. -/

/-- mstatus.TVM is written in M-mode only: in another mode the write is refused, in M-mode the field
takes the value, or stays clear on a hart without it; and no step changes `mstatus` of a hart that is
not in M-mode (10_state.md section 4, general knowledge G4, decision D5; the refusal is log entry
32). -/
def Obligations.TvmIsWrittenInMachineModeOnly : Prop :=
  (∀ (s : State) (v : Bool), s.hart.priv ≠ .M →
    envSetTvm v s = .error (.refused (.notPermitted s.hart.priv))) ∧
  (∀ (s : State) (v : Bool), s.hart.priv = .M →
    ∃ t, envSetTvm v s = .ok t ∧ t.hart.mstatus.tvm = (s.params.hasTVM && v) ∧
      t = { s with hart := { s.hart with mstatus := t.hart.mstatus } }) ∧
  (∀ s t : State, step s = .next t → ∀ g ∈ t.harts, ∃ g' ∈ s.harts, g'.id = g.id ∧
    (g.mstatus = g'.mstatus ∨ g'.priv = .M))

/-- A write of `satp` between Bare and the scheme's mode, or of its ASID, takes effect at once, and
ends no translation: whether accesses are translated follows the new MODE, the candidates are matched
against the new ASID, what was usable stays usable until a subsuming fence. Every such write completes
in a mode that may access `satp`, and changes that register alone. A write in a mode that may not access
`satp`, and a change between two non-Bare modes, are refused (10_state.md section 4; decisions
D17, D22, general knowledge G8; log entries 17, 24, 32). -/
def Obligations.SatpWriteTakesEffectAtOnce : Prop :=
  ∀ (s t : State) (v : Satp),
    (envWriteSatp v (tick s) = .ok t →
      t.hart.satp = legalSatp s.params v ∧
      (s.params.activeRule = .standard → (translationActive t = true ↔
        (legalSatp s.params v).mode ≠ 0 ∧ t.hart.priv ≠ .M)) ∧
      (∀ va o, o ∈ candidatesNow t va →
        o.asid = (legalSatp s.params v).asid ∨ o.gpath = true) ∧
      t.hart.fenceLog = s.hart.fenceLog ∧
      (s.timed = true → ∀ o, Usable s.params s.hart o s.now → Usable t.params t.hart o t.now)) ∧
    (s.hart.priv = .M ∨ (s.hart.priv = .S ∧ tvmBit s = false) →
      ((legalSatp s.params v).mode = 0 ∨
        (legalSatp s.params v).mode = (paramScheme s.params).modeNum ∧
          (s.hart.satp.mode = 0 ∨ s.hart.satp.mode = (paramScheme s.params).modeNum)) →
      envWriteSatp v (tick s) = .ok { tick s with
        hart := { (tick s).hart with satp := legalSatp s.params v } }) ∧
    (s.hart.priv = .U ∨ (s.hart.priv = .S ∧ tvmBit s = true) →
      envWriteSatp v (tick s) = .error (.refused (.notPermitted s.hart.priv))) ∧
    (s.hart.priv = .M ∨ (s.hart.priv = .S ∧ tvmBit s = false) →
      s.hart.satp.mode ≠ 0 → (legalSatp s.params v).mode ≠ 0 →
      (legalSatp s.params v).mode ≠ s.hart.satp.mode →
      envWriteSatp v (tick s) =
        .error (.refused (.satpModeChange s.hart.satp.mode (legalSatp s.params v).mode)))

/-- A change of SUM or MXR takes effect at once: the permission check of the next use of any
observation, cached or not, is made with the new values, and the observations to choose from are the
same (10_state.md R27). -/
def Obligations.SumAndMxrTakeEffectAtOnce : Prop :=
  ∀ (s : State) (sum mxr : Bool) (acc : Access) (va : Word) (o : Observation),
    permits (envWriteSstatus sum mxr s) acc o =
      (decide (obsClass (paramScheme s.params) o ≠ .invalid) &&
        (paramScheme s.params).check (checkedPte s.params acc o) acc s.hart.priv sum mxr) ∧
    candidatesNow (envWriteSstatus sum mxr s) va = candidatesNow s va ∧
    translationActive (envWriteSstatus sum mxr s) = translationActive s

/-- The word of `satp` and the record the model holds agree, both ways: a word gives a record that gives
the word, and a record whose fields fit gives a word that gives the record. The fields stand in the word
where the layout has them: MODE in bits 63:60, ASID in 59:44 and PPN in 43:0 at XLEN 64, MODE in bit 31,
ASID in 30:22 and PPN in 21:0 at XLEN 32 (10_state.md section 4, general knowledge G8; log entry 38). -/
def Obligations.SatpWordRoundTrip : Prop :=
  (∀ (w : Word),
    satpWord .rv64 (satpOfWord .rv64 w) = w ∧
    (w.toNat < 2 ^ 32 → satpWord .rv32 (satpOfWord .rv32 w) = w)) ∧
  (∀ (v : Satp),
    (v.mode < 2 ^ 4 → v.asid.toNat < 2 ^ 16 → v.root.toNat < 2 ^ 44 →
      satpOfWord .rv64 (satpWord .rv64 v) = v) ∧
    (v.mode < 2 → v.asid.toNat < 2 ^ 9 → v.root.toNat < 2 ^ 22 →
      satpOfWord .rv32 (satpWord .rv32 v) = v)) ∧
  (∀ (mode : BitVec 4) (asid : BitVec 16) (ppn : BitVec 44),
    satpWord .rv64 { mode := mode.toNat, asid := asid.setWidth 64, root := ppn.setWidth 64 } =
      mode ++ asid ++ ppn) ∧
  (∀ (mode : BitVec 1) (asid : BitVec 9) (ppn : BitVec 22),
    satpWord .rv32 { mode := mode.toNat, asid := asid.setWidth 64, root := ppn.setWidth 64 } =
      (mode ++ asid ++ ppn).setWidth 64)

/-! Several harts. -/

/-- SFENCE.VMA acts on the hart that executes it and on no other: a step that runs an instruction, on
the hart that moved last or on the one the turn names, appends to that hart's fence log only, and
leaves every other hart as it was, but that its present became past; so it ends no use of another
hart's (20_memory.md R78). -/
def Obligations.AnInstructionActsOnItsHartOnly : Prop :=
  ∀ (s t : State), step s = .next t →
    (s.agenda = [] → t.hart.id = s.hart.id ∧ s.hart.fenceLog <+: t.hart.fenceLog ∧
      t.others = s.others.map Hart.tick) ∧
    (∀ id rest, s.agenda = .instr id :: rest →
      ∃ s1, switchTo id { s with agenda := rest } = .ok s1 ∧ t.hart.id = id ∧
        s1.hart.fenceLog <+: t.hart.fenceLog ∧ t.others = s1.others.map Hart.tick) ∧
    (∀ (p : Params) (g : Hart) (o : Observation) (n : Nat), n < g.timeline.length →
      (Usable p g.tick o n ↔ Usable p g o n))

/-- Only a completed SFENCE.VMA makes a fence log grow, and only its own hart's, by one record of the
present time: any other step leaves every hart's log as it was (20_memory.md section 6). -/
def Obligations.OnlyAFenceGrowsTheLog : Prop :=
  ∀ (s t : State), step s = .next t →
    (∀ g ∈ t.others, ∃ g' ∈ s.harts, g'.id = g.id ∧ g.fenceLog = g'.fenceLog) ∧
    (∃ g' ∈ s.harts, g'.id = t.hart.id ∧
      (t.hart.fenceLog = g'.fenceLog ∨
        ∃ f, t.hart.fenceLog = g'.fenceLog ++ [f] ∧ f.time = t.now ∧
          ∃ s1 s2 rs1 rs2, nextTurn s = .ok (none, s1) ∧
            fetchInstr s1 = .ok (.sfenceVma rs1 rs2, s2)))

/-- After a data fence every store the hart executed before it is visible to every other hart: each byte
that the fence owes reads as the newest of those stores left it, every other byte as before, none of them
is in flight any more and the stores of other harts are. What is owed: a store owes each of its bytes to
every other hart; a hart that sees a store of another, whichever of those in flight and in whatever order,
will after a fence of that one see the newest in each byte the seen store covers, and every other byte as
it would have. So the bytes of the last store before the fence read back in every other hart's view
(20_memory.md section 5; decision D15, log entry 20). -/
def Obligations.DataFencePublishesStores : Prop :=
  ∀ (s : State), s.memWf = true →
    (∀ (k : Nat) (g : Hart), s.others[k]? = some g →
      ∃ g', (envDataFence s).others[k]? = some g' ∧ g' = { g with mem := g'.mem } ∧
        ∀ a, g'.mem.read a = settledByte s s.hart.id g a) ∧
    (envDataFence s).others.length = s.others.length ∧
    (∀ q, q ∈ (envDataFence s).inFlight ↔ q ∈ s.inFlight ∧ q.src ≠ s.hart.id) ∧
    (∀ (pa n v : Nat), ∀ g ∈ s.others, ∀ k < n,
      some (settledByte (memWrite s pa n v) s.hart.id g (pa + k)) = (leBytes n v)[k]? ∧
      newestByte s.hart.id g.id (pa + k) (memWrite s pa n v).inFlight = (leBytes n v)[k]?) ∧
    (∀ (k : Nat) (t : State) (q : Pending), envObserve k s = .ok t → s.inFlight[k]? = some q →
      (∀ src dst a, newestByte src dst a t.inFlight = newestByte src dst a s.inFlight) ∧
      ∀ a, if q.covers a = true then
          some (settledByte t q.src t.hart a) = newestByte q.src q.dst a s.inFlight
        else ∀ src, settledByte t src t.hart a = settledByte s src s.hart a) ∧
    (∀ (pa n v : Nat), ∀ g ∈ (envDataFence (memWrite s pa n v)).others, ∀ k < n,
      some (g.mem.read (pa + k)) = (leBytes n v)[k]?)

/-- A store in flight may become visible to the hart it goes to at any time and in any order, as a whole:
the hart then sees its bytes, every other byte as before, and nothing else changes but what a data fence
owes. An observation of a store that is not in flight to the hart is refused (20_memory.md section 4;
decision D15, log entries 20, 30). -/
def Obligations.AnyStoreInFlightMayBeSeen : Prop :=
  ∀ (s : State) (k : Nat), s.memWf = true →
    (∀ q, s.inFlight[k]? = some q → q.dst = s.hart.id →
      ∃ t, envObserve k s = .ok t ∧
        (∀ a, t.hart.mem.read a =
          if q.pa ≤ a then ((q.bytes[a - q.pa]?).map PendingByte.val).getD (s.hart.mem.read a)
          else s.hart.mem.read a) ∧
        t = { s with hart := { s.hart with mem := t.hart.mem }, inFlight := t.inFlight } ∧
        t.inFlight.map (fun r => (r.src, r.dst, r.pa, r.bytes.map PendingByte.val)) =
          s.inFlight.map (fun r => (r.src, r.dst, r.pa, r.bytes.map PendingByte.val))) ∧
    ((∀ q, s.inFlight[k]? = some q → q.dst ≠ s.hart.id) →
      envObserve k s = .error (.refused (.nothingInFlight k)))

/-- An interprocessor interrupt is taken only after it was sent to this hart, and once: a send to a hart
that is there adds one entry for it, a take removes the oldest entry for this hart and no other, and no
other step changes what is pending. Taking it moves nothing of the fence log and the hart's registers
(60_exceptions.md section 5, decision D18; one entry for each send, the oldest taken first, and the
handler's entry, which is the turn's, are the model's, log entry 22). -/
def Obligations.IpiIsTakenAfterItWasSent : Prop :=
  (∀ (s t : State) (pc : Word) (m : Priv), envTakeIpi pc m s = .ok t →
    (∃ q ∈ s.ipis, q.dst = s.hart.id) ∧
    t.ipis = s.ipis.eraseP (fun q => decide (q.dst = s.hart.id)) ∧
    t.hart.fenceLog = s.hart.fenceLog ∧ ∀ r, getX t r = getX s r) ∧
  (∀ (s : State) (pc : Word) (m : Priv), (∀ q ∈ s.ipis, q.dst ≠ s.hart.id) →
    envTakeIpi pc m s = .error (.refused (.noPendingIpi s.hart.id))) ∧
  (∀ (s : State) (dest : Nat), dest ∈ s.harts.map (·.id) →
    envSendIpi dest s = .ok { s with ipis := s.ipis ++ [{ src := s.hart.id, dst := dest }] }) ∧
  (∀ (s : State) (dest : Nat), dest ∉ s.harts.map (·.id) →
    envSendIpi dest s = .error (.refused (.noSuchHart dest))) ∧
  (∀ s t : State, step s = .next t →
    t.ipis = match s.agenda with
      | .env id (.sendIpi dest) :: _ => s.ipis ++ [{ src := id, dst := dest }]
      | .env id (.takeIpi _ _) :: _ => s.ipis.eraseP (fun q => decide (q.dst = id))
      | _ => s.ipis)

/-! Memory. -/

/-- A byte reads back as written, and every other byte reads as before (10_state.md section 6). -/
def Obligations.MemoryReadAfterWrite : Prop :=
  ∀ (m : Memory) (a b : Nat) (v : Byte), m.wf = true →
    (m.write a v).read b = if b = a then v else m.read b

/-- A store changes only the bytes it stores to: every byte outside `[pa, pa + n)` reads as before, every
byte inside as the store's, and nothing else of the hart and of the machine changes but the stores in
flight to other harts and the stored ranges. A `Store` writes so at the address that its translation
gives (20_memory.md section 1 and section 7; what its translation may write is log entry 18). -/
def Obligations.StoreFrame : Prop :=
  ∀ (s : State) (n v : Nat), s.memWf = true →
    (∀ pa,
      (∀ a, a < pa ∨ pa + n ≤ a →
        (memWrite s pa n v).hart.mem.read a = s.hart.mem.read a) ∧
      (∀ k < n, some ((memWrite s pa n v).hart.mem.read (pa + k)) = (leBytes n v)[k]?) ∧
      (memWrite s pa n v).hart = { s.hart with mem := (memWrite s pa n v).hart.mem } ∧
      memWrite s pa n v = { s with
        hart := (memWrite s pa n v).hart, inFlight := (memWrite s pa n v).inFlight,
        written := s.written ++ [(pa, n)] } ∧
      ∃ new, (memWrite s pa n v).inFlight = s.inFlight ++ new ∧ ∀ q ∈ new, q.src = s.hart.id) ∧
    (∀ va t, envStore va n v s = .ok t →
      ∃ pa s1, Machine.translate .store (trunc s.params va) s = .ok (pa, s1) ∧
        inPAddr s.params pa n = true ∧
        (∀ a, a < pa ∨ pa + n ≤ a → t.hart.mem.read a = s1.hart.mem.read a) ∧
        (s.params.implicitWrites = .absent → s1.hart.mem = s.hart.mem) ∧
        (∀ k < n, some (t.hart.mem.read (pa + k)) = (leBytes n v)[k]?) ∧
        t.hart = { s.hart with mem := t.hart.mem } ∧ t.others = s.others ∧
        t.params = s.params ∧ t.now = s.now ∧ t.agenda = s.agenda ∧ t.ipis = s.ipis ∧
        t.draws = s1.draws ∧ t.written = s1.written ++ [(pa, n)]) ∧
    (∀ va pa s1, s.params.dataEndian = .little →
      Machine.translate .store (trunc s.params va) s = .ok (pa, s1) → inPAddr s.params pa n = true →
      envStore va n v s = .ok (memWrite s1 pa n v))

/-- A `Load` reads at the address its translation gives: the value it records has as its k-th byte the
byte the hart sees at `pa + k`, and it changes nothing else but what the translation changed; it
completes wherever the translation answers an address of `PAddr` on a little-endian hart (20_memory.md
section 1 and section 7; `lastLoad` is the model's own field, log entry 21). -/
def Obligations.ALoadReadsTheTranslatedAddress : Prop :=
  ∀ (s : State) (va : Word) (n : Nat),
    (∀ t, envLoad va n s = .ok t →
      ∃ pa s1 v, Machine.translate .load (trunc s.params va) s = .ok (pa, s1) ∧
        inPAddr s.params pa n = true ∧ t.hart.lastLoad = some v ∧ v < 256 ^ n ∧
        (∀ k < n, v / 256 ^ k % 256 = (s1.hart.mem.read (pa + k)).toNat) ∧
        t = { s1 with hart := { s1.hart with lastLoad := some v } }) ∧
    (∀ pa s1, s.params.dataEndian = .little →
      Machine.translate .load (trunc s.params va) s = .ok (pa, s1) → inPAddr s.params pa n = true →
      ∃ t, envLoad va n s = .ok t)

/-! The step. -/

/-- A step runs the decoded instruction: where the word the fetch gives decodes to an instruction, the
step is that instruction on the state the fetch leaves, in the turn the agenda gives
(20_memory.md section 5; 10_state.md section 7). -/
def Obligations.AStepRunsTheDecodedInstruction : Prop :=
  ∀ (s s1 s2 : State) (w : BitVec 32) (i : Instr) (rest : List Byte),
    nextTurn s = .ok (none, s1) → fetch s1 = .ok (w, s2) →
    decodeBytes (bytesOfWord w) = .ok (i, rest) → step s = exec i s2

/-- The same where nothing is translated: when the four bytes of an instruction stand at an aligned `pc`
and were not stored to, a step with an empty agenda is that instruction, one time step later
(20_memory.md section 1, decisions D14, D20; log entries 12, 13, 19). -/
def Obligations.AStepRunsTheBytesAtPc : Prop :=
  ∀ (s : State) (i : Instr), s.agenda = [] → translationActive s = false →
    (getPc s).toNat % 4 = 0 → inPAddr s.params (getPc s).toNat 4 = true →
    storedTo s (getPc s).toNat 4 = false →
    (∀ k < 4, some (s.hart.mem.read ((getPc s).toNat + k)) = (encodeBytes i)[k]?) →
    step s = exec i (tick s)

/-- A turn that is an environment action is that action, on the hart the turn names, one time step
later (20_memory.md section 1, decision D23; log entry 19). -/
def Obligations.AStepPerformsTheEnvironmentAction : Prop :=
  ∀ (s s1 : State) (id : Nat) (a : EnvAct) (rest : List Turn), s.agenda = .env id a :: rest →
    switchTo id { s with agenda := rest } = .ok s1 → step s = outcomeOf (envAct a (tick s1))

/-- After launch: M-mode, `pc` at the reset vector, an empty fence log, time 0, the launch memory, and
x0 zero, for every value of the launch parameters; the values of the registers no rule gives are the
model's choice (10_state.md section 8, decision D13; log entries 3, 4, 5, 6). -/
def Obligations.LaunchState : Prop :=
  ∀ (p : Params) (m : Memory) (obs : Nat → List Observation) (first : Nat) (rest : List Nat),
    ∀ h ∈ (State.launch p m obs first rest).harts,
      h.priv = .M ∧ h.pc = p.resetVector ∧ h.fenceLog = [] ∧ h.mem = m ∧ h.past = [] ∧
      h.initialObs = obs h.id ∧ h.getX p 0#5 = 0#64 ∧ h.satp.mode = 0 ∧
      (∀ r, h.getX p r = 0#64) ∧ (State.launch p m obs first rest).now = 0

/-- Every completed instruction counts as one in its hart's `instret`, SFENCE.VMA as any other: a step
that runs an instruction adds one to the moving hart's counter, an environment action adds one only
when it says that an instruction out of scope completes, and no step moves another hart's counter
(60_exceptions.md section 8, general knowledge G24; log entry 39). -/
def Obligations.EveryInstructionIsCounted : Prop :=
  ∀ (s t : State), step s = .next t →
    (s.agenda = [] ∨ (∃ id rest, s.agenda = .instr id :: rest) →
      ∃ h ∈ s.harts, h.id = t.hart.id ∧ t.hart.instret = h.instret + 1#64) ∧
    (∀ id a rest, s.agenda = .env id a :: rest →
      ∃ h ∈ s.harts, h.id = t.hart.id ∧ t.hart.id = id ∧
        t.hart.instret = if a = .retire then h.instret + 1#64 else h.instret) ∧
    (∀ g ∈ t.others, ∃ h ∈ s.harts, h.id = g.id ∧ g.instret = h.instret)

/-! Invariants of every step. -/

/-- Every step keeps every memory in canonical form (model's form of 10_state.md section 6). -/
def Obligations.MemoryStaysCanonical : Prop :=
  ∀ s t : State, s.memWf = true → step s = .next t → t.memWf = true

/-- Time advances by one at each step, every hart's history keeps one snapshot for each past time, and
no fence is from the future (10_state.md section 7, decision D23; log entry 27). -/
def Obligations.TimeAdvancesAndHistoriesKeepPace : Prop :=
  ∀ s t : State, s.timed = true → step s = .next t → t.timed = true ∧ t.now = s.now + 1

/-- The past is never rewritten: after a step each hart's past is the timeline one of the harts had
before it, under the same identifier, so `Satp_h(t)` and `Visible_h(t)` are kept for every past t
(10_state.md section 7, decision D9; log entry 27). -/
def Obligations.ThePastIsNeverRewritten : Prop :=
  ∀ s t : State, step s = .next t →
    ∀ g ∈ t.harts, ∃ g' ∈ s.harts, g'.id = g.id ∧ g.past = g'.timeline

/-- Every step keeps every hart legal: MODE is Bare or the scheme's, and Bare where MODE is read-only
zero; the ASID has ASIDLEN bits; the fence log holds only valid addresses and ASIDs; there is no
U-mode and no TVM where the hart has none; `pc` has XLEN bits (10_state.md section 4,
decisions D5, D17; log entries 9, 24). -/
def Obligations.HartsStayLegal : Prop :=
  ∀ s t : State, s.legal = true → step s = .next t → t.legal = true

/-- The parameters of the machine and the set of its harts never change (00_scope.md section 5;
log entry 2). -/
def Obligations.ParametersNeverChange : Prop :=
  ∀ s t : State, step s = .next t →
    t.params = s.params ∧ (t.harts.map (·.id)).Perm (s.harts.map (·.id))

/-- The state after reset meets every invariant above (10_state.md section 8; log entries 2 to 6). -/
def Obligations.ResetMeetsTheInvariants : Prop :=
  State.reset.memWf = true ∧ State.reset.timed = true ∧ State.reset.legal = true ∧
    State.reset.params.wellFormed = true ∧ (State.reset.harts.map (·.id)).Nodup

/-- The assembler's spelling: two names of registers, of whichever kind, give the instruction with those
fields, first rs1, then rs2; a word that is no register's name is refused, and so is a line with one
operand or more than two; no operands give the full fence (30_encoding.md section 6, general knowledge G3;
log entry 36). -/
def Obligations.AssemblerSpelling : Prop :=
  assemble "sfence.vma" [] = .ok (.sfenceVma 0#5 0#5) ∧
  assemble "sfence.vma" ["x0", "x0"] = .ok (.sfenceVma 0#5 0#5) ∧
  assemble "sfence.vma" ["a0", "x0"] = .ok (.sfenceVma 10#5 0#5) ∧
  assemble "sfence.vma" ["x0", "a1"] = .ok (.sfenceVma 0#5 11#5) ∧
  assemble "sfence.vma" ["a0", "a1"] = .ok (.sfenceVma 10#5 11#5) ∧
  assemble "sfence.vma" ["zero", "zero"] = .ok (.sfenceVma 0#5 0#5) ∧
  (∀ a, assemble "sfence.vma" [a] = .error .oneOperand) ∧
  (∀ a b c l, assemble "sfence.vma" (a :: b :: c :: l) = .error .tooManyOperands) ∧
  (∀ (a b : String) (rs1 rs2 : Reg), IsNameOf a rs1 → IsNameOf b rs2 →
    assemble "sfence.vma" [a, b] = .ok (.sfenceVma rs1 rs2)) ∧
  (∀ a b : String, ((∀ r, ¬ IsNameOf a r) ∨ ∀ r, ¬ IsNameOf b r) →
    assemble "sfence.vma" [a, b] = .error .unknownRegister)
end

