-- ==== Sys2Proof/Laws/Memory.lean ====
section
/-! SUPPORT. What memory operations do: they keep the canonical form, and a byte reads back. -/

namespace Sys2Proof.Machine

@[simp] theorem Memory.read_nil (a : Nat) : Memory.read [] a = unlistedByte := rfl

@[simp] theorem Memory.writeBytes_nil (m : Memory) (a : Nat) : m.writeBytes a [] = m := rfl

@[simp] theorem Memory.writeBytes_cons (m : Memory) (a : Nat) (b : Byte) (bs : List Byte) :
    m.writeBytes a (b :: bs) = (m.write a b).writeBytes (a + 1) bs := rfl

@[simp] theorem leBytes_length (n v : Nat) : (leBytes n v).length = n := by
  induction n generalizing v with
  | zero => rfl
  | succ n ih => simp [leBytes, ih]

/-- A bound on the first address can be lowered. -/
theorem Memory.wfFrom_mono {lo lo' : Nat} {m : Memory} (h : lo' ≤ lo)
    (hm : Memory.wfFrom lo m = true) : Memory.wfFrom lo' m = true := by
  cases m with
  | nil => rfl
  | cons c m =>
    simp only [Memory.wfFrom, Bool.and_eq_true, decide_eq_true_eq] at hm ⊢
    exact ⟨⟨by omega, hm.1.2⟩, hm.2⟩

/-- An address below every entry reads as unlisted. -/
theorem Memory.read_below {lo a : Nat} {m : Memory} (hm : Memory.wfFrom lo m = true)
    (h : a < lo) : m.read a = unlistedByte := by
  cases m with
  | nil => rfl
  | cons c m =>
    simp only [Memory.wfFrom, Bool.and_eq_true, decide_eq_true_eq] at hm
    have hlt : a < c.1 := by omega
    simp [Memory.read, hlt, show a ≠ c.1 by omega]

/-- A write keeps the canonical form above any bound it respects. -/
theorem Memory.wfFrom_write {lo a : Nat} {m : Memory} {v : Byte}
    (hm : Memory.wfFrom lo m = true) (h : lo ≤ a) : Memory.wfFrom lo (m.write a v) = true := by
  induction m generalizing lo with
  | nil =>
    by_cases hv : v = unlistedByte <;> simp [Memory.write, Memory.wfFrom, hv, h]
  | cons c m ih =>
    obtain ⟨b, w⟩ := c
    simp only [Memory.wfFrom, Bool.and_eq_true, decide_eq_true_eq] at hm
    obtain ⟨⟨hlo, hw⟩, hm⟩ := hm
    simp only [Memory.write]
    split
    · next hab =>
      split
      · simp [Memory.wfFrom, hlo, hw, hm]
      · next hv => simp [Memory.wfFrom, h, hv, hw, hm]; omega
    · split
      · next hab =>
        subst hab
        split
        · exact Memory.wfFrom_mono (by omega) hm
        · next hv => simp [Memory.wfFrom, h, hv, hm]
      · simp [Memory.wfFrom, hlo, hw, ih hm (by omega)]

/-- A write keeps the canonical form. -/
theorem Memory.wf_write {m : Memory} (a : Nat) (v : Byte) (hm : m.wf = true) :
    (m.write a v).wf = true := Memory.wfFrom_write hm (Nat.zero_le a)

/-- Writing bytes keeps the canonical form. -/
theorem Memory.wf_writeBytes {m : Memory} (a : Nat) (bs : List Byte) (hm : m.wf = true) :
    (m.writeBytes a bs).wf = true := by
  induction bs generalizing m a with
  | nil => exact hm
  | cons b bs ih => exact ih _ (Memory.wf_write a b hm)

/-- A byte reads back as written. -/
theorem Memory.read_write_self {lo a : Nat} {m : Memory} {v : Byte}
    (hm : Memory.wfFrom lo m = true) : (m.write a v).read a = v := by
  induction m generalizing lo with
  | nil => by_cases hv : v = unlistedByte <;> simp [Memory.write, Memory.read, hv]
  | cons c m ih =>
    obtain ⟨b, w⟩ := c
    simp only [Memory.wfFrom, Bool.and_eq_true, decide_eq_true_eq] at hm
    obtain ⟨⟨-, -⟩, hm⟩ := hm
    simp only [Memory.write]
    split
    · next hab =>
      split
      · next hv => simp [Memory.read, hab, hv, show a ≠ b by omega]
      · simp [Memory.read]
    · split
      · next hab =>
        subst hab
        split
        · next hv => rw [hv]; exact Memory.read_below hm (by omega)
        · simp [Memory.read]
      · next h1 h2 => simp [Memory.read, h1, h2, ih hm]

/-- Every other byte reads as before. -/
theorem Memory.read_write_other {lo a b : Nat} {m : Memory} {v : Byte} (hab : b ≠ a)
    (hm : Memory.wfFrom lo m = true) : (m.write a v).read b = m.read b := by
  induction m generalizing lo with
  | nil => by_cases hv : v = unlistedByte <;> simp [Memory.write, Memory.read, hv, hab]
  | cons c m ih =>
    obtain ⟨d, w⟩ := c
    simp only [Memory.wfFrom, Bool.and_eq_true, decide_eq_true_eq] at hm
    obtain ⟨⟨-, -⟩, hm⟩ := hm
    simp only [Memory.write]
    split
    · next hlt =>
      split
      · rfl
      · by_cases hba : b < a
        · simp [Memory.read, hab, hba, show b ≠ d by omega, show b < d by omega]
        · simp [Memory.read, hab, hba]
    · split
      · next hnl had =>
        subst had
        split
        · by_cases hba : b < a
          · simp [Memory.read, hab, hba, Memory.read_below hm (show b < a + 1 by omega)]
          · simp [Memory.read, hab, hba]
        · simp [Memory.read, hab]
      · simp only [Memory.read]
        split
        · rfl
        · split
          · rfl
          · exact ih hm

/-- A byte outside the written range reads as before. -/
theorem Memory.read_writeBytes_outside {m : Memory} {a b : Nat} {bs : List Byte}
    (hm : m.wf = true) (h : b < a ∨ a + bs.length ≤ b) :
    (m.writeBytes a bs).read b = m.read b := by
  induction bs generalizing m a with
  | nil => rfl
  | cons c bs ih =>
    simp only [List.length_cons] at h
    rw [Memory.writeBytes_cons, ih (Memory.wf_write a c hm) (by omega)]
    exact Memory.read_write_other (by omega) hm

/-- A byte inside the written range reads as written. -/
theorem Memory.read_writeBytes_inside {m : Memory} {a k : Nat} {bs : List Byte}
    (hm : m.wf = true) (hk : k < bs.length) :
    some ((m.writeBytes a bs).read (a + k)) = bs[k]? := by
  induction bs generalizing m a k with
  | nil => simp at hk
  | cons c bs ih =>
    rw [Memory.writeBytes_cons]
    cases k with
    | zero =>
      rw [Memory.read_writeBytes_outside (Memory.wf_write a c hm) (by omega), Nat.add_zero,
        Memory.read_write_self hm]
      rfl
    | succ k =>
      have := ih (a := a + 1) (k := k) (Memory.wf_write a c hm) (by simpa using hk)
      rwa [show a + (k + 1) = a + 1 + k by omega, List.getElem?_cons_succ]

/-- What a byte reads as after bytes were written: the byte written there, or else as before. -/
theorem Memory.read_writeBytes {m : Memory} {a b : Nat} {bs : List Byte} (hm : m.wf = true) :
    (m.writeBytes a bs).read b = if a ≤ b then bs[b - a]?.getD (m.read b) else m.read b := by
  by_cases hab : a ≤ b
  · rw [if_pos hab]
    by_cases hb : b - a < bs.length
    · have := Memory.read_writeBytes_inside (a := a) hm hb
      rw [show a + (b - a) = b by omega] at this
      rw [← this]
      rfl
    · rw [Memory.read_writeBytes_outside hm (by omega), List.getElem?_eq_none (by omega)]
      rfl
  · rw [if_neg hab, Memory.read_writeBytes_outside hm (by omega)]

@[simp] theorem Memory.writeSome_nil (m : Memory) (a : Nat) : m.writeSome a [] = m := rfl

@[simp] theorem Memory.writeSome_none (m : Memory) (a : Nat) (bs : List (Option Byte)) :
    m.writeSome a (none :: bs) = m.writeSome (a + 1) bs := rfl

@[simp] theorem Memory.writeSome_some (m : Memory) (a : Nat) (b : Byte) (bs : List (Option Byte)) :
    m.writeSome a (some b :: bs) = (m.write a b).writeSome (a + 1) bs := rfl

/-- Writing some of the bytes keeps the canonical form. -/
theorem Memory.wf_writeSome {m : Memory} (a : Nat) (bs : List (Option Byte)) (hm : m.wf = true) :
    (m.writeSome a bs).wf = true := by
  induction bs generalizing m a with
  | nil => exact hm
  | cons b bs ih =>
    cases b with
    | none => exact ih _ hm
    | some b => exact ih _ (Memory.wf_write a b hm)

/-- What a byte reads as after some bytes were written: the byte written there, or else as before. -/
theorem Memory.read_writeSome {m : Memory} {a c : Nat} {bs : List (Option Byte)} (hm : m.wf = true) :
    (m.writeSome a bs).read c =
      if a ≤ c then (bs[c - a]?.join).getD (m.read c) else m.read c := by
  induction bs generalizing m a with
  | nil => simp
  | cons b bs ih =>
    have next : ∀ {m : Memory}, m.wf = true → (m.writeSome (a + 1) bs).read c =
        if a < c then (bs[c - a - 1]?.join).getD (m.read c) else m.read c := fun hm => by
      rw [ih hm, Nat.sub_sub]
      rfl
    rcases Nat.lt_trichotomy a c with h | h | h
    · obtain ⟨k, hk⟩ := Nat.exists_eq_add_of_lt h
      have e : c - a = k + 1 := by omega
      cases b with
      | none => simp [next hm, h, Nat.le_of_lt h, e]
      | some b =>
        simp [next (Memory.wf_write a b hm), h, Nat.le_of_lt h, e,
          Memory.read_write_other (Nat.ne_of_gt h) hm]
    · subst h
      cases b with
      | none => simp [next hm]
      | some b => simp [next (Memory.wf_write a b hm), Memory.read_write_self hm]
    · cases b with
      | none => simp [next hm, Nat.not_le_of_lt h, Nat.lt_asymm h]
      | some b =>
        simp [next (Memory.wf_write a b hm), Nat.not_le_of_lt h, Nat.lt_asymm h,
          Memory.read_write_other (Nat.ne_of_lt h) hm]

/-- An `n`-byte number has `n` bytes. -/
theorem Memory.readLE_lt (m : Memory) (a n : Nat) : m.readLE a n < 256 ^ n := by
  induction n generalizing a with
  | zero => simp [Memory.readLE]
  | succ n ih =>
    have h1 := ih (a + 1)
    have h2 := (m.read a).isLt
    simp only [Memory.readLE, Nat.pow_succ]
    omega

/-- The `k`-th byte of an `n`-byte number is the byte at its `k`-th address. -/
theorem Memory.readLE_byte (m : Memory) {a n k : Nat} (hk : k < n) :
    m.readLE a n / 256 ^ k % 256 = (m.read (a + k)).toNat := by
  induction n generalizing a k with
  | zero => omega
  | succ n ih =>
    have h := (m.read a).isLt
    simp only [Memory.readLE]
    cases k with
    | zero => simp only [Nat.pow_zero, Nat.div_one, Nat.add_zero]; omega
    | succ k =>
      have h2 := ih (a := a + 1) (k := k) (by omega)
      rw [Nat.pow_succ, Nat.mul_comm (256 ^ k), ← Nat.div_div_eq_div_mul,
        show ((m.read a).toNat + 256 * m.readLE (a + 1) n) / 256 = m.readLE (a + 1) n by omega,
        h2, show a + 1 + k = a + (k + 1) by omega]

end Sys2Proof.Machine
end

