-- ==== Sys2Proof/Laws/State.lean ====
section
/-! SUPPORT. One lemma per field per update, so that no proof unfolds a record update. -/

namespace Sys2Proof.Machine

/-! `Hart.setX` -/

@[simp] theorem Hart.setX_id (p : Params) (h : Hart) (r : Reg) (v : Word) :
    (h.setX p r v).id = h.id := by
  unfold Hart.setX; split <;> rfl
@[simp] theorem Hart.setX_pc (p : Params) (h : Hart) (r : Reg) (v : Word) :
    (h.setX p r v).pc = h.pc := by
  unfold Hart.setX; split <;> rfl
@[simp] theorem Hart.setX_priv (p : Params) (h : Hart) (r : Reg) (v : Word) :
    (h.setX p r v).priv = h.priv := by
  unfold Hart.setX; split <;> rfl
@[simp] theorem Hart.setX_satp (p : Params) (h : Hart) (r : Reg) (v : Word) :
    (h.setX p r v).satp = h.satp := by
  unfold Hart.setX; split <;> rfl
@[simp] theorem Hart.setX_sstatus (p : Params) (h : Hart) (r : Reg) (v : Word) :
    (h.setX p r v).sstatus = h.sstatus := by
  unfold Hart.setX; split <;> rfl
@[simp] theorem Hart.setX_mstatus (p : Params) (h : Hart) (r : Reg) (v : Word) :
    (h.setX p r v).mstatus = h.mstatus := by
  unfold Hart.setX; split <;> rfl
@[simp] theorem Hart.setX_mem (p : Params) (h : Hart) (r : Reg) (v : Word) :
    (h.setX p r v).mem = h.mem := by
  unfold Hart.setX; split <;> rfl
@[simp] theorem Hart.setX_past (p : Params) (h : Hart) (r : Reg) (v : Word) :
    (h.setX p r v).past = h.past := by
  unfold Hart.setX; split <;> rfl
@[simp] theorem Hart.setX_fenceLog (p : Params) (h : Hart) (r : Reg) (v : Word) :
    (h.setX p r v).fenceLog = h.fenceLog := by
  unfold Hart.setX; split <;> rfl
@[simp] theorem Hart.setX_initialObs (p : Params) (h : Hart) (r : Reg) (v : Word) :
    (h.setX p r v).initialObs = h.initialObs := by
  unfold Hart.setX; split <;> rfl
@[simp] theorem Hart.setX_instret (p : Params) (h : Hart) (r : Reg) (v : Word) :
    (h.setX p r v).instret = h.instret := by
  unfold Hart.setX; split <;> rfl
@[simp] theorem Hart.setX_lastLoad (p : Params) (h : Hart) (r : Reg) (v : Word) :
    (h.setX p r v).lastLoad = h.lastLoad := by
  unfold Hart.setX; split <;> rfl

/-! `Hart.see` -/

@[simp] theorem Hart.see_id (h : Hart) (pa : Nat) (bs : List Byte) : (h.see pa bs).id = h.id := rfl
@[simp] theorem Hart.see_x (h : Hart) (pa : Nat) (bs : List Byte) : (h.see pa bs).x = h.x := rfl
@[simp] theorem Hart.see_pc (h : Hart) (pa : Nat) (bs : List Byte) : (h.see pa bs).pc = h.pc := rfl
@[simp] theorem Hart.see_priv (h : Hart) (pa : Nat) (bs : List Byte) :
    (h.see pa bs).priv = h.priv := rfl
@[simp] theorem Hart.see_satp (h : Hart) (pa : Nat) (bs : List Byte) :
    (h.see pa bs).satp = h.satp := rfl
@[simp] theorem Hart.see_sstatus (h : Hart) (pa : Nat) (bs : List Byte) :
    (h.see pa bs).sstatus = h.sstatus := rfl
@[simp] theorem Hart.see_mstatus (h : Hart) (pa : Nat) (bs : List Byte) :
    (h.see pa bs).mstatus = h.mstatus := rfl
@[simp] theorem Hart.see_past (h : Hart) (pa : Nat) (bs : List Byte) :
    (h.see pa bs).past = h.past := rfl
@[simp] theorem Hart.see_fenceLog (h : Hart) (pa : Nat) (bs : List Byte) :
    (h.see pa bs).fenceLog = h.fenceLog := rfl
@[simp] theorem Hart.see_initialObs (h : Hart) (pa : Nat) (bs : List Byte) :
    (h.see pa bs).initialObs = h.initialObs := rfl
@[simp] theorem Hart.see_instret (h : Hart) (pa : Nat) (bs : List Byte) :
    (h.see pa bs).instret = h.instret := rfl
@[simp] theorem Hart.see_lastLoad (h : Hart) (pa : Nat) (bs : List Byte) :
    (h.see pa bs).lastLoad = h.lastLoad := rfl
@[simp] theorem Hart.see_mem (h : Hart) (pa : Nat) (bs : List Byte) :
    (h.see pa bs).mem = h.mem.writeBytes pa bs := rfl

/-! `Hart.tick` -/

@[simp] theorem Hart.tick_id (h : Hart) : h.tick.id = h.id := rfl
@[simp] theorem Hart.tick_x (h : Hart) : h.tick.x = h.x := rfl
@[simp] theorem Hart.tick_pc (h : Hart) : h.tick.pc = h.pc := rfl
@[simp] theorem Hart.tick_priv (h : Hart) : h.tick.priv = h.priv := rfl
@[simp] theorem Hart.tick_satp (h : Hart) : h.tick.satp = h.satp := rfl
@[simp] theorem Hart.tick_sstatus (h : Hart) : h.tick.sstatus = h.sstatus := rfl
@[simp] theorem Hart.tick_mstatus (h : Hart) : h.tick.mstatus = h.mstatus := rfl
@[simp] theorem Hart.tick_mem (h : Hart) : h.tick.mem = h.mem := rfl
@[simp] theorem Hart.tick_fenceLog (h : Hart) : h.tick.fenceLog = h.fenceLog := rfl
@[simp] theorem Hart.tick_initialObs (h : Hart) : h.tick.initialObs = h.initialObs := rfl
@[simp] theorem Hart.tick_instret (h : Hart) : h.tick.instret = h.instret := rfl
@[simp] theorem Hart.tick_lastLoad (h : Hart) : h.tick.lastLoad = h.lastLoad := rfl
@[simp] theorem Hart.tick_past (h : Hart) : h.tick.past = h.timeline := rfl

/-! `setX` -/

@[simp] theorem setX_params (s : State) (r : Reg) (v : Word) : (setX s r v).params = s.params := rfl
@[simp] theorem setX_now (s : State) (r : Reg) (v : Word) : (setX s r v).now = s.now := rfl
@[simp] theorem setX_others (s : State) (r : Reg) (v : Word) : (setX s r v).others = s.others := rfl
@[simp] theorem setX_agenda (s : State) (r : Reg) (v : Word) : (setX s r v).agenda = s.agenda := rfl
@[simp] theorem setX_inFlight (s : State) (r : Reg) (v : Word) :
    (setX s r v).inFlight = s.inFlight := rfl
@[simp] theorem setX_ipis (s : State) (r : Reg) (v : Word) : (setX s r v).ipis = s.ipis := rfl
@[simp] theorem setX_written (s : State) (r : Reg) (v : Word) : (setX s r v).written = s.written :=
    rfl
@[simp] theorem setX_draws (s : State) (r : Reg) (v : Word) : (setX s r v).draws = s.draws := rfl
@[simp] theorem setX_hart_id (s : State) (r : Reg) (v : Word) : (setX s r v).hart.id = s.hart.id :=
    by
  simp [setX]
@[simp] theorem setX_hart_pc (s : State) (r : Reg) (v : Word) : (setX s r v).hart.pc = s.hart.pc :=
    by
  simp [setX]
@[simp] theorem setX_hart_priv (s : State) (r : Reg) (v : Word) :
    (setX s r v).hart.priv = s.hart.priv := by
  simp [setX]
@[simp] theorem setX_hart_satp (s : State) (r : Reg) (v : Word) :
    (setX s r v).hart.satp = s.hart.satp := by
  simp [setX]
@[simp] theorem setX_hart_sstatus (s : State) (r : Reg) (v : Word) :
    (setX s r v).hart.sstatus = s.hart.sstatus := by
  simp [setX]
@[simp] theorem setX_hart_mstatus (s : State) (r : Reg) (v : Word) :
    (setX s r v).hart.mstatus = s.hart.mstatus := by
  simp [setX]
@[simp] theorem setX_hart_mem (s : State) (r : Reg) (v : Word) :
    (setX s r v).hart.mem = s.hart.mem := by
  simp [setX]
@[simp] theorem setX_hart_past (s : State) (r : Reg) (v : Word) :
    (setX s r v).hart.past = s.hart.past := by
  simp [setX]
@[simp] theorem setX_hart_fenceLog (s : State) (r : Reg) (v : Word) :
    (setX s r v).hart.fenceLog = s.hart.fenceLog := by
  simp [setX]
@[simp] theorem setX_hart_initialObs (s : State) (r : Reg) (v : Word) :
    (setX s r v).hart.initialObs = s.hart.initialObs := by
  simp [setX]
@[simp] theorem setX_hart_instret (s : State) (r : Reg) (v : Word) :
    (setX s r v).hart.instret = s.hart.instret := by
  simp [setX]
@[simp] theorem setX_hart_lastLoad (s : State) (r : Reg) (v : Word) :
    (setX s r v).hart.lastLoad = s.hart.lastLoad := by
  simp [setX]

/-! `setPc` -/

@[simp] theorem setPc_params (s : State) (v : Word) : (setPc s v).params = s.params := rfl
@[simp] theorem setPc_now (s : State) (v : Word) : (setPc s v).now = s.now := rfl
@[simp] theorem setPc_others (s : State) (v : Word) : (setPc s v).others = s.others := rfl
@[simp] theorem setPc_agenda (s : State) (v : Word) : (setPc s v).agenda = s.agenda := rfl
@[simp] theorem setPc_inFlight (s : State) (v : Word) : (setPc s v).inFlight = s.inFlight := rfl
@[simp] theorem setPc_ipis (s : State) (v : Word) : (setPc s v).ipis = s.ipis := rfl
@[simp] theorem setPc_written (s : State) (v : Word) : (setPc s v).written = s.written := rfl
@[simp] theorem setPc_draws (s : State) (v : Word) : (setPc s v).draws = s.draws := rfl
@[simp] theorem setPc_hart_id (s : State) (v : Word) : (setPc s v).hart.id = s.hart.id := rfl
@[simp] theorem setPc_hart_x (s : State) (v : Word) : (setPc s v).hart.x = s.hart.x := rfl
@[simp] theorem setPc_hart_priv (s : State) (v : Word) : (setPc s v).hart.priv = s.hart.priv := rfl
@[simp] theorem setPc_hart_satp (s : State) (v : Word) : (setPc s v).hart.satp = s.hart.satp := rfl
@[simp] theorem setPc_hart_sstatus (s : State) (v : Word) :
    (setPc s v).hart.sstatus = s.hart.sstatus := rfl
@[simp] theorem setPc_hart_mstatus (s : State) (v : Word) :
    (setPc s v).hart.mstatus = s.hart.mstatus := rfl
@[simp] theorem setPc_hart_mem (s : State) (v : Word) : (setPc s v).hart.mem = s.hart.mem := rfl
@[simp] theorem setPc_hart_past (s : State) (v : Word) : (setPc s v).hart.past = s.hart.past := rfl
@[simp] theorem setPc_hart_fenceLog (s : State) (v : Word) :
    (setPc s v).hart.fenceLog = s.hart.fenceLog := rfl
@[simp] theorem setPc_hart_initialObs (s : State) (v : Word) :
    (setPc s v).hart.initialObs = s.hart.initialObs := rfl
@[simp] theorem setPc_hart_instret (s : State) (v : Word) :
    (setPc s v).hart.instret = s.hart.instret := rfl
@[simp] theorem setPc_hart_lastLoad (s : State) (v : Word) :
    (setPc s v).hart.lastLoad = s.hart.lastLoad := rfl

@[simp] theorem setPc_hart_pc (s : State) (v : Word) : (setPc s v).hart.pc = trunc s.params v := rfl

/-! `advancePc` -/

@[simp] theorem advancePc_params (s : State) : (advancePc s).params = s.params := rfl
@[simp] theorem advancePc_now (s : State) : (advancePc s).now = s.now := rfl
@[simp] theorem advancePc_others (s : State) : (advancePc s).others = s.others := rfl
@[simp] theorem advancePc_agenda (s : State) : (advancePc s).agenda = s.agenda := rfl
@[simp] theorem advancePc_inFlight (s : State) : (advancePc s).inFlight = s.inFlight := rfl
@[simp] theorem advancePc_ipis (s : State) : (advancePc s).ipis = s.ipis := rfl
@[simp] theorem advancePc_written (s : State) : (advancePc s).written = s.written := rfl
@[simp] theorem advancePc_draws (s : State) : (advancePc s).draws = s.draws := rfl
@[simp] theorem advancePc_hart_id (s : State) : (advancePc s).hart.id = s.hart.id := rfl
@[simp] theorem advancePc_hart_x (s : State) : (advancePc s).hart.x = s.hart.x := rfl
@[simp] theorem advancePc_hart_priv (s : State) : (advancePc s).hart.priv = s.hart.priv := rfl
@[simp] theorem advancePc_hart_satp (s : State) : (advancePc s).hart.satp = s.hart.satp := rfl
@[simp] theorem advancePc_hart_sstatus (s : State) : (advancePc s).hart.sstatus = s.hart.sstatus :=
    rfl
@[simp] theorem advancePc_hart_mstatus (s : State) : (advancePc s).hart.mstatus = s.hart.mstatus :=
    rfl
@[simp] theorem advancePc_hart_mem (s : State) : (advancePc s).hart.mem = s.hart.mem := rfl
@[simp] theorem advancePc_hart_past (s : State) : (advancePc s).hart.past = s.hart.past := rfl
@[simp] theorem advancePc_hart_fenceLog (s : State) :
    (advancePc s).hart.fenceLog = s.hart.fenceLog := rfl
@[simp] theorem advancePc_hart_initialObs (s : State) :
    (advancePc s).hart.initialObs = s.hart.initialObs := rfl
@[simp] theorem advancePc_hart_instret (s : State) :
    (advancePc s).hart.instret = s.hart.instret := rfl
@[simp] theorem advancePc_hart_lastLoad (s : State) :
    (advancePc s).hart.lastLoad = s.hart.lastLoad := rfl

@[simp] theorem advancePc_hart_pc (s : State) :
    (advancePc s).hart.pc = trunc s.params (getPc s + 4#64) := rfl

/-! `appendFence` -/

@[simp] theorem appendFence_params (s : State) (f : FenceRec) :
    (appendFence s f).params = s.params := rfl
@[simp] theorem appendFence_now (s : State) (f : FenceRec) : (appendFence s f).now = s.now := rfl
@[simp] theorem appendFence_others (s : State) (f : FenceRec) :
    (appendFence s f).others = s.others := rfl
@[simp] theorem appendFence_agenda (s : State) (f : FenceRec) :
    (appendFence s f).agenda = s.agenda := rfl
@[simp] theorem appendFence_inFlight (s : State) (f : FenceRec) :
    (appendFence s f).inFlight = s.inFlight := rfl
@[simp] theorem appendFence_ipis (s : State) (f : FenceRec) : (appendFence s f).ipis = s.ipis := rfl
@[simp] theorem appendFence_written (s : State) (f : FenceRec) :
    (appendFence s f).written = s.written := rfl
@[simp] theorem appendFence_draws (s : State) (f : FenceRec) : (appendFence s f).draws = s.draws :=
    rfl
@[simp] theorem appendFence_hart_id (s : State) (f : FenceRec) :
    (appendFence s f).hart.id = s.hart.id := rfl
@[simp] theorem appendFence_hart_x (s : State) (f : FenceRec) :
    (appendFence s f).hart.x = s.hart.x := rfl
@[simp] theorem appendFence_hart_pc (s : State) (f : FenceRec) :
    (appendFence s f).hart.pc = s.hart.pc := rfl
@[simp] theorem appendFence_hart_priv (s : State) (f : FenceRec) :
    (appendFence s f).hart.priv = s.hart.priv := rfl
@[simp] theorem appendFence_hart_satp (s : State) (f : FenceRec) :
    (appendFence s f).hart.satp = s.hart.satp := rfl
@[simp] theorem appendFence_hart_sstatus (s : State) (f : FenceRec) :
    (appendFence s f).hart.sstatus = s.hart.sstatus := rfl
@[simp] theorem appendFence_hart_mstatus (s : State) (f : FenceRec) :
    (appendFence s f).hart.mstatus = s.hart.mstatus := rfl
@[simp] theorem appendFence_hart_mem (s : State) (f : FenceRec) :
    (appendFence s f).hart.mem = s.hart.mem := rfl
@[simp] theorem appendFence_hart_past (s : State) (f : FenceRec) :
    (appendFence s f).hart.past = s.hart.past := rfl
@[simp] theorem appendFence_hart_initialObs (s : State) (f : FenceRec) :
    (appendFence s f).hart.initialObs = s.hart.initialObs := rfl
@[simp] theorem appendFence_hart_instret (s : State) (f : FenceRec) :
    (appendFence s f).hart.instret = s.hart.instret := rfl
@[simp] theorem appendFence_hart_lastLoad (s : State) (f : FenceRec) :
    (appendFence s f).hart.lastLoad = s.hart.lastLoad := rfl

@[simp] theorem appendFence_hart_fenceLog (s : State) (f : FenceRec) :
    (appendFence s f).hart.fenceLog = s.hart.fenceLog ++ [f] := rfl

/-! `tick` -/

@[simp] theorem tick_params (s : State) : (tick s).params = s.params := rfl
@[simp] theorem tick_agenda (s : State) : (tick s).agenda = s.agenda := rfl
@[simp] theorem tick_inFlight (s : State) : (tick s).inFlight = s.inFlight := rfl
@[simp] theorem tick_ipis (s : State) : (tick s).ipis = s.ipis := rfl
@[simp] theorem tick_written (s : State) : (tick s).written = s.written := rfl
@[simp] theorem tick_draws (s : State) : (tick s).draws = s.draws := rfl
@[simp] theorem tick_hart_id (s : State) : (tick s).hart.id = s.hart.id := rfl
@[simp] theorem tick_hart_x (s : State) : (tick s).hart.x = s.hart.x := rfl
@[simp] theorem tick_hart_pc (s : State) : (tick s).hart.pc = s.hart.pc := rfl
@[simp] theorem tick_hart_priv (s : State) : (tick s).hart.priv = s.hart.priv := rfl
@[simp] theorem tick_hart_satp (s : State) : (tick s).hart.satp = s.hart.satp := rfl
@[simp] theorem tick_hart_sstatus (s : State) : (tick s).hart.sstatus = s.hart.sstatus := rfl
@[simp] theorem tick_hart_mstatus (s : State) : (tick s).hart.mstatus = s.hart.mstatus := rfl
@[simp] theorem tick_hart_mem (s : State) : (tick s).hart.mem = s.hart.mem := rfl
@[simp] theorem tick_hart_fenceLog (s : State) : (tick s).hart.fenceLog = s.hart.fenceLog := rfl
@[simp] theorem tick_hart_initialObs (s : State) : (tick s).hart.initialObs = s.hart.initialObs :=
    rfl
@[simp] theorem tick_hart_instret (s : State) : (tick s).hart.instret = s.hart.instret := rfl
@[simp] theorem tick_hart_lastLoad (s : State) : (tick s).hart.lastLoad = s.hart.lastLoad := rfl

@[simp] theorem tick_now (s : State) : (tick s).now = s.now + 1 := rfl
@[simp] theorem tick_others (s : State) : (tick s).others = s.others.map Hart.tick := rfl
@[simp] theorem tick_hart (s : State) : (tick s).hart = s.hart.tick := rfl

/-! `memWrite` -/

@[simp] theorem memWrite_params (s : State) (pa n v : Nat) :
    (memWrite s pa n v).params = s.params := rfl
@[simp] theorem memWrite_now (s : State) (pa n v : Nat) : (memWrite s pa n v).now = s.now := rfl
@[simp] theorem memWrite_others (s : State) (pa n v : Nat) :
    (memWrite s pa n v).others = s.others := rfl
@[simp] theorem memWrite_agenda (s : State) (pa n v : Nat) :
    (memWrite s pa n v).agenda = s.agenda := rfl
@[simp] theorem memWrite_ipis (s : State) (pa n v : Nat) : (memWrite s pa n v).ipis = s.ipis := rfl
@[simp] theorem memWrite_draws (s : State) (pa n v : Nat) : (memWrite s pa n v).draws = s.draws :=
    rfl
@[simp] theorem memWrite_hart_id (s : State) (pa n v : Nat) :
    (memWrite s pa n v).hart.id = s.hart.id := rfl
@[simp] theorem memWrite_hart_x (s : State) (pa n v : Nat) :
    (memWrite s pa n v).hart.x = s.hart.x := rfl
@[simp] theorem memWrite_hart_pc (s : State) (pa n v : Nat) :
    (memWrite s pa n v).hart.pc = s.hart.pc := rfl
@[simp] theorem memWrite_hart_priv (s : State) (pa n v : Nat) :
    (memWrite s pa n v).hart.priv = s.hart.priv := rfl
@[simp] theorem memWrite_hart_satp (s : State) (pa n v : Nat) :
    (memWrite s pa n v).hart.satp = s.hart.satp := rfl
@[simp] theorem memWrite_hart_sstatus (s : State) (pa n v : Nat) :
    (memWrite s pa n v).hart.sstatus = s.hart.sstatus := rfl
@[simp] theorem memWrite_hart_mstatus (s : State) (pa n v : Nat) :
    (memWrite s pa n v).hart.mstatus = s.hart.mstatus := rfl
@[simp] theorem memWrite_hart_past (s : State) (pa n v : Nat) :
    (memWrite s pa n v).hart.past = s.hart.past := rfl
@[simp] theorem memWrite_hart_fenceLog (s : State) (pa n v : Nat) :
    (memWrite s pa n v).hart.fenceLog = s.hart.fenceLog := rfl
@[simp] theorem memWrite_hart_initialObs (s : State) (pa n v : Nat) :
    (memWrite s pa n v).hart.initialObs = s.hart.initialObs := rfl
@[simp] theorem memWrite_hart_instret (s : State) (pa n v : Nat) :
    (memWrite s pa n v).hart.instret = s.hart.instret := rfl
@[simp] theorem memWrite_hart_lastLoad (s : State) (pa n v : Nat) :
    (memWrite s pa n v).hart.lastLoad = s.hart.lastLoad := rfl

@[simp] theorem memWrite_hart_mem (s : State) (pa n v : Nat) :
    (memWrite s pa n v).hart.mem = s.hart.mem.writeBytes pa (leBytes n v) := rfl
@[simp] theorem memWrite_written (s : State) (pa n v : Nat) :
    (memWrite s pa n v).written = s.written ++ [(pa, n)] := rfl

/-! `envWriteSstatus` -/

@[simp] theorem envWriteSstatus_params (s : State) (a b : Bool) :
    (envWriteSstatus a b s).params = s.params := rfl
@[simp] theorem envWriteSstatus_now (s : State) (a b : Bool) :
    (envWriteSstatus a b s).now = s.now := rfl
@[simp] theorem envWriteSstatus_others (s : State) (a b : Bool) :
    (envWriteSstatus a b s).others = s.others := rfl
@[simp] theorem envWriteSstatus_agenda (s : State) (a b : Bool) :
    (envWriteSstatus a b s).agenda = s.agenda := rfl
@[simp] theorem envWriteSstatus_inFlight (s : State) (a b : Bool) :
    (envWriteSstatus a b s).inFlight = s.inFlight := rfl
@[simp] theorem envWriteSstatus_ipis (s : State) (a b : Bool) :
    (envWriteSstatus a b s).ipis = s.ipis := rfl
@[simp] theorem envWriteSstatus_written (s : State) (a b : Bool) :
    (envWriteSstatus a b s).written = s.written := rfl
@[simp] theorem envWriteSstatus_draws (s : State) (a b : Bool) :
    (envWriteSstatus a b s).draws = s.draws := rfl
@[simp] theorem envWriteSstatus_hart_id (s : State) (a b : Bool) :
    (envWriteSstatus a b s).hart.id = s.hart.id := rfl
@[simp] theorem envWriteSstatus_hart_x (s : State) (a b : Bool) :
    (envWriteSstatus a b s).hart.x = s.hart.x := rfl
@[simp] theorem envWriteSstatus_hart_pc (s : State) (a b : Bool) :
    (envWriteSstatus a b s).hart.pc = s.hart.pc := rfl
@[simp] theorem envWriteSstatus_hart_priv (s : State) (a b : Bool) :
    (envWriteSstatus a b s).hart.priv = s.hart.priv := rfl
@[simp] theorem envWriteSstatus_hart_satp (s : State) (a b : Bool) :
    (envWriteSstatus a b s).hart.satp = s.hart.satp := rfl
@[simp] theorem envWriteSstatus_hart_mstatus (s : State) (a b : Bool) :
    (envWriteSstatus a b s).hart.mstatus = s.hart.mstatus := rfl
@[simp] theorem envWriteSstatus_hart_mem (s : State) (a b : Bool) :
    (envWriteSstatus a b s).hart.mem = s.hart.mem := rfl
@[simp] theorem envWriteSstatus_hart_past (s : State) (a b : Bool) :
    (envWriteSstatus a b s).hart.past = s.hart.past := rfl
@[simp] theorem envWriteSstatus_hart_fenceLog (s : State) (a b : Bool) :
    (envWriteSstatus a b s).hart.fenceLog = s.hart.fenceLog := rfl
@[simp] theorem envWriteSstatus_hart_initialObs (s : State) (a b : Bool) :
    (envWriteSstatus a b s).hart.initialObs = s.hart.initialObs := rfl
@[simp] theorem envWriteSstatus_hart_instret (s : State) (a b : Bool) :
    (envWriteSstatus a b s).hart.instret = s.hart.instret := rfl
@[simp] theorem envWriteSstatus_hart_lastLoad (s : State) (a b : Bool) :
    (envWriteSstatus a b s).hart.lastLoad = s.hart.lastLoad := rfl

/-! `setTvm` -/

@[simp] theorem setTvm_params (s : State) (v : Bool) : (setTvm s v).params = s.params := rfl
@[simp] theorem setTvm_now (s : State) (v : Bool) : (setTvm s v).now = s.now := rfl
@[simp] theorem setTvm_others (s : State) (v : Bool) : (setTvm s v).others = s.others := rfl
@[simp] theorem setTvm_agenda (s : State) (v : Bool) : (setTvm s v).agenda = s.agenda := rfl
@[simp] theorem setTvm_inFlight (s : State) (v : Bool) : (setTvm s v).inFlight = s.inFlight := rfl
@[simp] theorem setTvm_ipis (s : State) (v : Bool) : (setTvm s v).ipis = s.ipis := rfl
@[simp] theorem setTvm_written (s : State) (v : Bool) : (setTvm s v).written = s.written := rfl
@[simp] theorem setTvm_draws (s : State) (v : Bool) : (setTvm s v).draws = s.draws := rfl
@[simp] theorem setTvm_hart_id (s : State) (v : Bool) : (setTvm s v).hart.id = s.hart.id := rfl
@[simp] theorem setTvm_hart_x (s : State) (v : Bool) : (setTvm s v).hart.x = s.hart.x := rfl
@[simp] theorem setTvm_hart_pc (s : State) (v : Bool) : (setTvm s v).hart.pc = s.hart.pc := rfl
@[simp] theorem setTvm_hart_priv (s : State) (v : Bool) :
    (setTvm s v).hart.priv = s.hart.priv := rfl
@[simp] theorem setTvm_hart_satp (s : State) (v : Bool) :
    (setTvm s v).hart.satp = s.hart.satp := rfl
@[simp] theorem setTvm_hart_sstatus (s : State) (v : Bool) :
    (setTvm s v).hart.sstatus = s.hart.sstatus := rfl
@[simp] theorem setTvm_hart_mem (s : State) (v : Bool) : (setTvm s v).hart.mem = s.hart.mem := rfl
@[simp] theorem setTvm_hart_past (s : State) (v : Bool) :
    (setTvm s v).hart.past = s.hart.past := rfl
@[simp] theorem setTvm_hart_fenceLog (s : State) (v : Bool) :
    (setTvm s v).hart.fenceLog = s.hart.fenceLog := rfl
@[simp] theorem setTvm_hart_initialObs (s : State) (v : Bool) :
    (setTvm s v).hart.initialObs = s.hart.initialObs := rfl
@[simp] theorem setTvm_hart_instret (s : State) (v : Bool) :
    (setTvm s v).hart.instret = s.hart.instret := rfl
@[simp] theorem setTvm_hart_lastLoad (s : State) (v : Bool) :
    (setTvm s v).hart.lastLoad = s.hart.lastLoad := rfl

@[simp] theorem setTvm_hart_mstatus (s : State) (v : Bool) :
    (setTvm s v).hart.mstatus = { tvm := s.params.hasTVM && v } := rfl

/-! `retire` -/

@[simp] theorem retire_params (s : State) : (retire s).params = s.params := rfl
@[simp] theorem retire_now (s : State) : (retire s).now = s.now := rfl
@[simp] theorem retire_others (s : State) : (retire s).others = s.others := rfl
@[simp] theorem retire_agenda (s : State) : (retire s).agenda = s.agenda := rfl
@[simp] theorem retire_inFlight (s : State) : (retire s).inFlight = s.inFlight := rfl
@[simp] theorem retire_ipis (s : State) : (retire s).ipis = s.ipis := rfl
@[simp] theorem retire_written (s : State) : (retire s).written = s.written := rfl
@[simp] theorem retire_draws (s : State) : (retire s).draws = s.draws := rfl
@[simp] theorem retire_hart_id (s : State) : (retire s).hart.id = s.hart.id := rfl
@[simp] theorem retire_hart_x (s : State) : (retire s).hart.x = s.hart.x := rfl
@[simp] theorem retire_hart_pc (s : State) : (retire s).hart.pc = s.hart.pc := rfl
@[simp] theorem retire_hart_priv (s : State) : (retire s).hart.priv = s.hart.priv := rfl
@[simp] theorem retire_hart_satp (s : State) : (retire s).hart.satp = s.hart.satp := rfl
@[simp] theorem retire_hart_sstatus (s : State) : (retire s).hart.sstatus = s.hart.sstatus := rfl
@[simp] theorem retire_hart_mstatus (s : State) : (retire s).hart.mstatus = s.hart.mstatus := rfl
@[simp] theorem retire_hart_mem (s : State) : (retire s).hart.mem = s.hart.mem := rfl
@[simp] theorem retire_hart_past (s : State) : (retire s).hart.past = s.hart.past := rfl
@[simp] theorem retire_hart_fenceLog (s : State) : (retire s).hart.fenceLog = s.hart.fenceLog := rfl
@[simp] theorem retire_hart_initialObs (s : State) :
    (retire s).hart.initialObs = s.hart.initialObs := rfl
@[simp] theorem retire_hart_lastLoad (s : State) : (retire s).hart.lastLoad = s.hart.lastLoad := rfl

@[simp] theorem retire_hart_instret (s : State) :
    (retire s).hart.instret = s.hart.instret + 1#64 := rfl

/-! `envDataFence` -/

@[simp] theorem envDataFence_params (s : State) : (envDataFence s).params = s.params := rfl
@[simp] theorem envDataFence_now (s : State) : (envDataFence s).now = s.now := rfl
@[simp] theorem envDataFence_agenda (s : State) : (envDataFence s).agenda = s.agenda := rfl
@[simp] theorem envDataFence_ipis (s : State) : (envDataFence s).ipis = s.ipis := rfl
@[simp] theorem envDataFence_written (s : State) : (envDataFence s).written = s.written := rfl
@[simp] theorem envDataFence_draws (s : State) : (envDataFence s).draws = s.draws := rfl
@[simp] theorem envDataFence_hart_id (s : State) : (envDataFence s).hart.id = s.hart.id := rfl
@[simp] theorem envDataFence_hart_x (s : State) : (envDataFence s).hart.x = s.hart.x := rfl
@[simp] theorem envDataFence_hart_pc (s : State) : (envDataFence s).hart.pc = s.hart.pc := rfl
@[simp] theorem envDataFence_hart_priv (s : State) : (envDataFence s).hart.priv = s.hart.priv := rfl
@[simp] theorem envDataFence_hart_satp (s : State) : (envDataFence s).hart.satp = s.hart.satp := rfl
@[simp] theorem envDataFence_hart_sstatus (s : State) :
    (envDataFence s).hart.sstatus = s.hart.sstatus := rfl
@[simp] theorem envDataFence_hart_mstatus (s : State) :
    (envDataFence s).hart.mstatus = s.hart.mstatus := rfl
@[simp] theorem envDataFence_hart_mem (s : State) : (envDataFence s).hart.mem = s.hart.mem := rfl
@[simp] theorem envDataFence_hart_past (s : State) : (envDataFence s).hart.past = s.hart.past := rfl
@[simp] theorem envDataFence_hart_fenceLog (s : State) :
    (envDataFence s).hart.fenceLog = s.hart.fenceLog := rfl
@[simp] theorem envDataFence_hart_initialObs (s : State) :
    (envDataFence s).hart.initialObs = s.hart.initialObs := rfl
@[simp] theorem envDataFence_hart_instret (s : State) :
    (envDataFence s).hart.instret = s.hart.instret := rfl
@[simp] theorem envDataFence_hart_lastLoad (s : State) :
    (envDataFence s).hart.lastLoad = s.hart.lastLoad := rfl

end Sys2Proof.Machine
end

