-- ==== Sys2Proof/Laws/Turn.lean ====
section
/-! SUPPORT. What taking a turn, a translation, a fetch and a step can do, said once. -/

namespace Sys2Proof.Machine

/-- A slice is the value modulo a power of two. -/
theorem lowBits_toNat (n : Nat) (v : Word) : (lowBits n v).toNat = v.toNat % 2 ^ n := by
  have h : v.toNat % 2 ^ n < 2 ^ 64 := Nat.lt_of_le_of_lt (Nat.mod_le _ _) v.isLt
  rw [lowBits, BitVec.toNat_ofNat, Nat.mod_eq_of_lt h]

/-- The slice of a slice is the slice. -/
@[simp] theorem lowBits_lowBits (n : Nat) (v : Word) : lowBits n (lowBits n v) = lowBits n v := by
  apply BitVec.eq_of_toNat_eq
  rw [lowBits_toNat, lowBits_toNat, Nat.mod_mod]

@[simp] theorem trunc_trunc (p : Params) (v : Word) : trunc p (trunc p v) = trunc p v :=
  lowBits_lowBits _ _

/-- Taking a hart out and leaving another permutes the harts. -/
theorem swapHart_some {id : Nat} {h g : Hart} {l l' : List Hart}
    (e : swapHart id h l = some (g, l')) : g.id = id ∧ (g :: l').Perm (h :: l) := by
  induction l generalizing l' with
  | nil => simp [swapHart] at e
  | cons a l ih =>
    simp only [swapHart] at e
    split at e
    · next ha =>
      simp only [Option.some.injEq, Prod.mk.injEq] at e
      obtain ⟨rfl, rfl⟩ := e
      exact ⟨ha, List.Perm.swap _ _ _⟩
    · split at e
      · next g' gs' e' =>
        simp only [Option.some.injEq, Prod.mk.injEq] at e
        obtain ⟨rfl, rfl⟩ := e
        obtain ⟨hid, hp⟩ := ih e'
        exact ⟨hid, (List.Perm.swap _ _ _).trans ((hp.cons a).trans (List.Perm.swap _ _ _))⟩
      · cases e

/-- What a switch of harts can do: the harts are permuted, the named one comes first, and nothing
else changes. -/
theorem switchTo_ok {id : Nat} {s t : State} (e : switchTo id s = .ok t) :
    t.hart.id = id ∧ t.harts.Perm s.harts ∧
      t = { s with hart := t.hart, others := t.others } := by
  simp only [switchTo] at e
  split at e
  · next h => cases e; exact ⟨h, List.Perm.refl _, rfl⟩
  · split at e
    · next g gs e' =>
      cases e
      obtain ⟨hid, hp⟩ := swapHart_some e'
      exact ⟨hid, hp, rfl⟩
    · cases e

/-- What taking a turn can do: the harts are permuted and tick, `now` advances by one, the agenda
loses its head, and nothing else changes. -/
theorem nextTurn_ok {s s1 : State} {a : Option EnvAct} (e : nextTurn s = .ok (a, s1)) :
    ∃ hs : State, hs.harts.Perm s.harts ∧ s1 = tick hs ∧
      hs = { s with hart := hs.hart, others := hs.others, agenda := s.agenda.tail } := by
  simp only [nextTurn] at e
  split at e
  · next h => cases e; exact ⟨s, List.Perm.refl _, rfl, by cases s; cases h; rfl⟩
  all_goals
    next h =>
    split at e
    · next s' e' =>
      cases e
      obtain ⟨-, hp, ht⟩ := switchTo_ok e'
      exact ⟨s', hp, rfl, by rw [h]; exact ht⟩
    · cases e

/-- What a step that gives a next state did. -/
theorem step_next {s t : State} (e : step s = .next t) :
    ∃ a s1, nextTurn s = .ok (a, s1) ∧
      match a with
      | some act => envAct act s1 = .ok t
      | none => ∃ i s2, fetchInstr s1 = .ok (i, s2) ∧ exec i s2 = .next t := by
  simp only [step] at e
  split at e
  · next r _ => cases r <;> cases e
  · next a s1 h1 =>
    refine ⟨some a, s1, h1, ?_⟩
    simp only [outcomeOf] at e
    split at e
    · next h => cases e; exact h
    · next r _ => cases r <;> cases e
  · next s1 h1 =>
    refine ⟨none, s1, h1, ?_⟩
    split at e
    · next r _ => cases r <;> cases e
    · next i s2 h2 => exact ⟨i, s2, h2, e⟩

/-- What an operation that only makes implicit references may change: the moving hart's memory (by an
implicit write), the stores in flight, the stored ranges and the counter of choices. -/
structure ReadsOnly (s t : State) : Prop where
  params : t.params = s.params
  now : t.now = s.now
  others : t.others = s.others
  agenda : t.agenda = s.agenda
  ipis : t.ipis = s.ipis
  hart : t.hart = { s.hart with mem := t.hart.mem }
  memWf : s.hart.mem.wf = true → t.hart.mem.wf = true

theorem ReadsOnly.refl (s : State) : ReadsOnly s s := ⟨rfl, rfl, rfl, rfl, rfl, rfl, id⟩

theorem ReadsOnly.trans {s t u : State} (a : ReadsOnly s t) (b : ReadsOnly t u) :
    ReadsOnly s u where
  params := b.params.trans a.params
  now := b.now.trans a.now
  others := b.others.trans a.others
  agenda := b.agenda.trans a.agenda
  ipis := b.ipis.trans a.ipis
  hart := by rw [b.hart, a.hart]
  memWf := fun h => b.memWf (a.memWf h)

/-- An implicit write is the only thing a translation does to the machine beside counting. -/
theorem implicitWrite_readsOnly (acc : Access) (o : Observation) (s : State) :
    ReadsOnly s (implicitWrite acc o s) := by
  unfold implicitWrite
  split
  · exact ReadsOnly.refl s
  · dsimp only
    split
    · exact ⟨rfl, rfl, rfl, rfl, rfl, rfl, fun h => Memory.wf_writeBytes _ _ h⟩
    · exact ReadsOnly.refl s

/-- What a translation that answers can do. -/
theorem translateWith_ok {c : Nat} {acc : Access} {va : Word} {s t : State} {pa : Nat}
    (e : translateWith c acc va s = .ok (pa, t)) :
    (translationActive s = false ∧ pa = va.toNat ∧ t = s) ∨
    (translationActive s = true ∧ ∃ o ∈ candidatesNow s va,
      permits { s with draws := s.draws + 1 } acc o = true ∧
      pa = (paramScheme s.params).target o.pte o.level va ∧
      t = implicitWrite acc o { s with draws := s.draws + 1 }) := by
  simp only [translateWith] at e
  split at e
  · next h => cases e; exact .inl ⟨by simpa using h, rfl, rfl⟩
  · next ha =>
    split at e
    · cases e
    · split at e
      · cases e
      · split at e
        · next o ho =>
          simp only [useObservation] at e
          split at e
          · next hp => cases e; exact .inr ⟨by simpa using ha, o, List.mem_of_getElem? ho, hp, rfl, rfl⟩
          · cases e
        · cases e

theorem translateWith_readsOnly {c : Nat} {acc : Access} {va : Word} {s t : State} {pa : Nat}
    (e : translateWith c acc va s = .ok (pa, t)) : ReadsOnly s t := by
  rcases translateWith_ok e with ⟨-, -, rfl⟩ | ⟨-, o, -, -, -, rfl⟩
  · exact ReadsOnly.refl _
  · have h : ReadsOnly s { s with draws := s.draws + 1 } := ⟨rfl, rfl, rfl, rfl, rfl, rfl, id⟩
    exact h.trans (implicitWrite_readsOnly acc o _)

theorem translate_readsOnly {acc : Access} {va : Word} {s t : State} {pa : Nat}
    (e : translate acc va s = .ok (pa, t)) : ReadsOnly s t :=
  translateWith_readsOnly e

theorem fetchBytes_readsOnly {va : Word} {n w : Nat} {s t : State}
    (e : fetchBytes va n s = .ok (w, t)) : ReadsOnly s t := by
  simp only [fetchBytes] at e
  split at e
  · cases e
  · next h =>
    split at e
    · cases e
    · split at e
      · cases e
      · cases e; exact translate_readsOnly h

theorem fetch_readsOnly {w : BitVec 32} {s t : State} (e : fetch s = .ok (w, t)) :
    ReadsOnly s t := by
  simp only [fetch] at e
  split at e
  · split at e
    · cases e
    · next h => cases e; exact fetchBytes_readsOnly h
  · split at e
    · split at e
      · cases e
      · next h =>
        split at e
        · cases e; exact fetchBytes_readsOnly h
        · split at e
          · cases e
          · next h2 => cases e; exact (fetchBytes_readsOnly h).trans (fetchBytes_readsOnly h2)
    · cases e

theorem fetchInstr_readsOnly {i : Instr} {s t : State} (e : fetchInstr s = .ok (i, t)) :
    ReadsOnly s t := by
  simp only [fetchInstr] at e
  split at e
  · cases e
  · next h =>
    split at e
    · cases e; exact fetch_readsOnly h
    · cases e

/-- What a completed SFENCE.VMA did. -/
theorem execSfenceVma_next {rs1 rs2 : Reg} {s t : State}
    (e : execSfenceVma rs1 rs2 s = .next t) :
    sfenceIllegal s = false ∧ 
      t = retire (advancePc (recordFence (vaSel rs1 s) (asidSel rs2 s) s)) := by
  simp only [execSfenceVma] at e
  split at e
  · cases e
  · next h => cases e; exact ⟨by simpa using h, rfl⟩

/-- A fence leaves its record or nothing. -/
theorem recordFence_cases (va asid : Option Word) (s : State) :
    (fenceTakesEffect s.params va = true ∧
      recordFence va asid s = appendFence s { time := s.now, va := va, asid := asid }) ∨
    (fenceTakesEffect s.params va = false ∧ recordFence va asid s = s) := by
  unfold recordFence
  cases fenceTakesEffect s.params va <;> simp

/-- Seeing stores changes a hart's memory and nothing else of it. -/
theorem seeFrom_hart (src : Nat) (h : Hart) (qs : List Pending) :
    seeFrom src h qs = { h with mem := (seeFrom src h qs).mem } := by
  induction qs generalizing h with
  | nil => rfl
  | cons q qs ih =>
    simp only [seeFrom]
    rw [ih]
    split <;> rfl

theorem seeFrom_memWf (src : Nat) (h : Hart) (qs : List Pending) (hm : h.mem.wf = true) :
    (seeFrom src h qs).mem.wf = true := by
  induction qs generalizing h with
  | nil => exact hm
  | cons q qs ih =>
    simp only [seeFrom]
    apply ih
    split
    · exact Memory.wf_writeSome _ _ hm
    · exact hm

end Sys2Proof.Machine
end

