-- ==== Sys2Proof/Laws/Env.lean ====
section
/-! SUPPORT. What an environment action can do, said once. -/

namespace Sys2Proof.Machine

/-- What no environment action changes, and what it keeps. `hart.legal` and `hart.mem.wf` are kept,
the moving hart's identity, history, fence log and initial observations are as before, and of every
other hart only the memory can change. -/
structure EnvEffects (s t : State) : Prop where
  params : t.params = s.params
  now : t.now = s.now
  agenda : t.agenda = s.agenda
  id : t.hart.id = s.hart.id
  past : t.hart.past = s.hart.past
  fenceLog : t.hart.fenceLog = s.hart.fenceLog
  initialObs : t.hart.initialObs = s.hart.initialObs
  others : ∃ f : Hart → Hart, t.others = s.others.map f ∧
    ∀ g, f g = { g with mem := (f g).mem } ∧ (g.mem.wf = true → (f g).mem.wf = true)
  memWf : s.hart.mem.wf = true → t.hart.mem.wf = true
  legal : s.hart.legal s.params = true → t.hart.legal s.params = true

/-- No change to the other harts. -/
theorem others_same {s t : State} (h : t.others = s.others) :
    ∃ f : Hart → Hart, t.others = s.others.map f ∧
      ∀ g, f g = { g with mem := (f g).mem } ∧ (g.mem.wf = true → (f g).mem.wf = true) :=
  ⟨fun g => g, by simp [h], fun _ => ⟨rfl, fun h => h⟩⟩

/-- A hart whose control registers, history and log are as before is as legal as before. -/
theorem legal_congr {p : Params} {h h' : Hart} (h1 : h'.satp = h.satp) (h2 : h'.past = h.past)
    (h3 : h'.fenceLog = h.fenceLog) (h4 : h'.priv = h.priv) (h5 : h'.mstatus = h.mstatus)
    (h6 : h'.pc = h.pc) : h'.legal p = h.legal p := by
  simp only [Hart.legal, h1, h2, h3, h4, h5, h6]

/-- A read-only operation is within the effects of an environment action. -/
theorem ReadsOnly.env {s t : State} (r : ReadsOnly s t) : EnvEffects s t where
  params := r.params
  now := r.now
  agenda := r.agenda
  id := by rw [r.hart]
  past := by rw [r.hart]
  fenceLog := by rw [r.hart]
  initialObs := by rw [r.hart]
  others := others_same r.others
  memWf := r.memWf
  legal := fun h => by rw [r.hart]; exact h

theorem EnvEffects.trans {s t u : State} (a : EnvEffects s t) (b : EnvEffects t u) :
    EnvEffects s u where
  params := b.params.trans a.params
  now := b.now.trans a.now
  agenda := b.agenda.trans a.agenda
  id := b.id.trans a.id
  past := b.past.trans a.past
  fenceLog := b.fenceLog.trans a.fenceLog
  initialObs := b.initialObs.trans a.initialObs
  others := by
    obtain ⟨f, hf, hf'⟩ := a.others
    obtain ⟨g, hg, hg'⟩ := b.others
    refine ⟨fun h => g (f h), by rw [hg, hf, List.map_map]; rfl, fun h => ⟨?_, ?_⟩⟩
    · dsimp only
      rw [(hg' (f h)).1, (hf' h).1]
    · exact fun hw => (hg' (f h)).2 ((hf' h).2 hw)
  memWf := fun h => b.memWf (a.memWf h)
  legal := fun h => by have := b.legal; rw [a.params] at this; exact this (a.legal h)

/-- An update of the moving hart alone. -/
theorem hartEffects {s t : State} (hp : t.params = s.params) (hn : t.now = s.now)
    (ha : t.agenda = s.agenda) (ho : t.others = s.others) (h1 : t.hart.id = s.hart.id)
    (h2 : t.hart.past = s.hart.past) (h3 : t.hart.fenceLog = s.hart.fenceLog)
    (h4 : t.hart.initialObs = s.hart.initialObs)
    (h5 : s.hart.mem.wf = true → t.hart.mem.wf = true)
    (h6 : s.hart.legal s.params = true → t.hart.legal s.params = true) : EnvEffects s t :=
  ⟨hp, hn, ha, h1, h2, h3, h4, others_same ho, h5, h6⟩

theorem memWrite_effects (s : State) (pa n v : Nat) : EnvEffects s (memWrite s pa n v) :=
  hartEffects rfl rfl rfl rfl rfl rfl rfl rfl (Memory.wf_writeBytes _ _)
    (fun h => (legal_congr rfl rfl rfl rfl rfl rfl).trans h)

theorem envFetch_effects {s t : State} (e : envFetch s = .ok t) : EnvEffects s t := by
  simp only [envFetch] at e
  split at e
  · cases e
  · next h => cases e; exact (fetch_readsOnly h).env

theorem envLoad_effects {va : Word} {n : Nat} {s t : State} (e : envLoad va n s = .ok t) :
    EnvEffects s t := by
  simp only [envLoad] at e
  split at e
  · cases e
  · split at e
    · cases e
    · next h =>
      split at e
      · cases e
        refine (translate_readsOnly h).env.trans (hartEffects rfl rfl rfl rfl rfl rfl rfl rfl
          (fun h => h) fun h => ?_)
        exact (legal_congr rfl rfl rfl rfl rfl rfl).trans h
      · cases e

theorem envStore_effects {va : Word} {n v : Nat} {s t : State} (e : envStore va n v s = .ok t) :
    EnvEffects s t := by
  simp only [envStore] at e
  split at e
  · cases e
  · split at e
    · cases e
    · next h =>
      split at e
      · cases e; exact (translate_readsOnly h).env.trans (memWrite_effects _ _ _ _)
      · cases e

/-- What a completed write of `satp` did. -/
theorem envWriteSatp_ok {v : Satp} {s t : State} (e : envWriteSatp v s = .ok t) :
    t = { s with hart := { s.hart with satp := legalSatp s.params v } } ∧
      ((legalSatp s.params v).mode = 0 ∨
        (legalSatp s.params v).mode = (paramScheme s.params).modeNum) ∧
      satpWritable s = true := by
  simp only [envWriteSatp] at e
  split at e
  · cases e
  · next hw =>
    split at e
    · cases e
    · split at e
      · cases e
      · next h => cases e; exact ⟨rfl, by tauto, by simpa using hw⟩

theorem legalSatp_legal {p : Params} {v : Satp}
    (h : (legalSatp p v).mode = 0 ∨ (legalSatp p v).mode = (paramScheme p).modeNum) :
    satpLegal p (legalSatp p v) = true := by
  cases hw : p.satpModeWritable <;>
    simp_all [satpLegal, legalSatp]

theorem envWriteSatp_effects {v : Satp} {s t : State} (e : envWriteSatp v s = .ok t) :
    EnvEffects s t := by
  obtain ⟨rfl, hm, -⟩ := envWriteSatp_ok e
  refine hartEffects rfl rfl rfl rfl rfl rfl rfl rfl (fun h => h) fun h => ?_
  have := legalSatp_legal hm
  simp only [Hart.legal, Bool.and_eq_true] at h ⊢
  simp only [this]
  tauto

theorem envSetPriv_effects {m : Priv} {s t : State} (e : envSetPriv m s = .ok t) :
    EnvEffects s t := by
  simp only [envSetPriv] at e
  split at e
  · cases e
  · next hm =>
    cases e
    refine hartEffects rfl rfl rfl rfl rfl rfl rfl rfl (fun h => h) fun h => ?_
    have hm' : (decide (m ≠ .U) || s.params.hasUserMode) = true := by
      cases hu : s.params.hasUserMode <;> simp_all
    simp only [Hart.legal, Bool.and_eq_true] at h ⊢
    simp only [hm']
    tauto

theorem setPc_effects (s : State) (v : Word) : EnvEffects s (setPc s v) := by
  refine hartEffects rfl rfl rfl rfl rfl rfl rfl rfl (fun h => h) fun h => ?_
  simp only [Hart.legal, Bool.and_eq_true, decide_eq_true_eq] at h ⊢
  simp only [setPc, trunc_trunc, and_true]
  tauto

theorem envTakeIpi_effects {pc : Word} {m : Priv} {s t : State}
    (e : envTakeIpi pc m s = .ok t) : EnvEffects s t := by
  simp only [envTakeIpi] at e
  split at e
  · have h : EnvEffects s { s with ipis := s.ipis.eraseP fun q => decide (q.dst = s.hart.id) } :=
      hartEffects rfl rfl rfl rfl rfl rfl rfl rfl (fun h => h) fun h => h
    exact (h.trans (setPc_effects _ _)).trans (envSetPriv_effects e)
  · cases e

theorem envDataFence_effects (s : State) : EnvEffects s (envDataFence s) where
  params := rfl
  now := rfl
  agenda := rfl
  id := rfl
  past := rfl
  fenceLog := rfl
  initialObs := rfl
  others := ⟨fun g => seeFrom s.hart.id g s.inFlight, rfl,
    fun _ => ⟨seeFrom_hart _ _ _, seeFrom_memWf _ _ _⟩⟩
  memWf := fun h => h
  legal := fun h => h

/-- What a completed write of mstatus.TVM did. -/
theorem envSetTvm_ok {v : Bool} {s t : State} (e : envSetTvm v s = .ok t) :
    t = setTvm s v ∧ s.hart.priv = .M := by
  simp only [envSetTvm] at e
  split at e
  · next h => cases e; exact ⟨rfl, h⟩
  · cases e

/-- What an environment action can do. -/
theorem envAct_effects {a : EnvAct} {s t : State} (e : envAct a s = .ok t) : EnvEffects s t := by
  cases a with
  | fetch => exact envFetch_effects e
  | store va n v => exact envStore_effects e
  | load va n => exact envLoad_effects e
  | writeSatp v => exact envWriteSatp_effects e
  | writeSstatus sum mxr =>
    cases e
    exact hartEffects rfl rfl rfl rfl rfl rfl rfl rfl (fun h => h) fun h => h
  | dataFence => cases e; exact envDataFence_effects s
  | sendIpi dest =>
    simp only [envAct, envSendIpi] at e
    split at e
    · cases e
      exact hartEffects rfl rfl rfl rfl rfl rfl rfl rfl (fun h => h) fun h => h
    · cases e
  | takeIpi pc m => exact envTakeIpi_effects e
  | observe k =>
    simp only [envAct, envObserve] at e
    split at e
    · split at e
      · cases e
        exact hartEffects rfl rfl rfl rfl rfl rfl rfl rfl (Memory.wf_writeBytes _ _) fun h => h
      · cases e
    · cases e
  | agentStore pa n v =>
    simp only [envAct, envAgentStore] at e
    split at e
    · cases e
      exact hartEffects rfl rfl rfl rfl rfl rfl rfl rfl (Memory.wf_writeBytes _ _) fun h => h
    · cases e
  | setReg r v =>
    cases e
    refine hartEffects rfl rfl rfl rfl ?_ ?_ ?_ ?_ ?_ ?_
    · simp
    · simp
    · simp
    · simp
    · simp
    · intro h
      rw [← h]
      exact legal_congr (by simp) (by simp) (by simp) (by simp) (by simp) (by simp)
  | setPc v => cases e; exact setPc_effects s v
  | setPriv m => exact envSetPriv_effects e
  | setTvm v =>
    obtain ⟨rfl, -⟩ := envSetTvm_ok e
    refine hartEffects rfl rfl rfl rfl rfl rfl rfl rfl (fun h => h) fun h => ?_
    simp only [Hart.legal, Bool.and_eq_true] at h ⊢
    have ht : (!(s.params.hasTVM && v) || s.params.hasTVM) = true := by
      cases s.params.hasTVM <;> simp
    simp only [setTvm, ht]
    tauto
  | retire =>
    cases e
    exact hartEffects rfl rfl rfl rfl rfl rfl rfl rfl (fun h => h) fun h => h

/-- What a completed load did: it read at the address the translation gives, and recorded the value. -/
theorem envLoad_ok {va : Word} {n : Nat} {s t : State} (e : envLoad va n s = .ok t) :
    ∃ pa s1, translate .load (trunc s.params va) s = .ok (pa, s1) ∧
      inPAddr s.params pa n = true ∧
      t = { s1 with hart := { s1.hart with lastLoad := some (memRead s1 pa n) } } := by
  simp only [envLoad] at e
  split at e
  · cases e
  · split at e
    · cases e
    · next h =>
      split at e
      · next hp => cases e; exact ⟨_, _, h, hp, rfl⟩
      · cases e

/-- What a completed store did: it wrote at the address the translation gives. -/
theorem envStore_ok {va : Word} {n v : Nat} {s t : State} (e : envStore va n v s = .ok t) :
    ∃ pa s1, translate .store (trunc s.params va) s = .ok (pa, s1) ∧
      inPAddr s.params pa n = true ∧ t = memWrite s1 pa n v := by
  simp only [envStore] at e
  split at e
  · cases e
  · split at e
    · cases e
    · next h =>
      split at e
      · next hp => cases e; exact ⟨_, _, h, hp, rfl⟩
      · cases e

/-- What an observation did: a store in flight to this hart became visible to it. -/
theorem envObserve_ok {k : Nat} {s t : State} (e : envObserve k s = .ok t) :
    ∃ q, s.inFlight[k]? = some q ∧ q.dst = s.hart.id ∧
      t = { s with hart := s.hart.see q.pa (q.bytes.map PendingByte.val)
                   inFlight := markSeen q k s.inFlight } := by
  simp only [envObserve] at e
  split at e
  · next q hq =>
    split at e
    · next hd => cases e; exact ⟨q, hq, hd, rfl⟩
    · cases e
  · cases e

/-- What taking an interrupt did: one was pending for this hart, the oldest such entry went, and the
hart's `pc` and privilege mode are the turn's. -/
theorem envTakeIpi_ok {pc : Word} {m : Priv} {s t : State} (e : envTakeIpi pc m s = .ok t) :
    (∃ q ∈ s.ipis, q.dst = s.hart.id) ∧
      t = { s with hart := { s.hart with pc := trunc s.params pc, priv := m }
                   ipis := s.ipis.eraseP fun q => decide (q.dst = s.hart.id) } := by
  simp only [envTakeIpi, envSetPriv] at e
  split at e
  · next h =>
    split at e
    · cases e
    · cases e
      simp only [List.any_eq_true, decide_eq_true_eq] at h
      exact ⟨h, rfl⟩
  · cases e

/-- What sending an interrupt did. -/
theorem envSendIpi_ok {dest : Nat} {s t : State} (e : envSendIpi dest s = .ok t) :
    t = { s with ipis := s.ipis ++ [{ src := s.hart.id, dst := dest }] } := by
  simp only [envSendIpi] at e
  split at e
  · cases e; rfl
  · cases e

/-- Only `sendIpi` adds a pending interrupt, and only `takeIpi` removes one. -/
theorem envAct_ipis {a : EnvAct} {s t : State} (e : envAct a s = .ok t) :
    t.ipis = match (generalizing := false) a with
      | .sendIpi dest => s.ipis ++ [{ src := s.hart.id, dst := dest }]
      | .takeIpi _ _ => s.ipis.eraseP fun q => decide (q.dst = s.hart.id)
      | _ => s.ipis := by
  cases a with
  | fetch =>
    simp only [envAct, envFetch] at e
    split at e
    · cases e
    · next h => cases e; exact (fetch_readsOnly h).ipis
  | store va n v => obtain ⟨pa, s1, h, -, rfl⟩ := envStore_ok e; exact (translate_readsOnly h).ipis
  | load va n => obtain ⟨pa, s1, h, -, rfl⟩ := envLoad_ok e; exact (translate_readsOnly h).ipis
  | writeSatp v => obtain ⟨rfl, -⟩ := envWriteSatp_ok e; rfl
  | writeSstatus sum mxr => cases e; rfl
  | dataFence => cases e; rfl
  | sendIpi dest => rw [envSendIpi_ok e]
  | takeIpi pc m => rw [(envTakeIpi_ok e).2]
  | observe k => obtain ⟨q, -, -, rfl⟩ := envObserve_ok e; rfl
  | agentStore pa n v =>
    simp only [envAct, envAgentStore] at e
    split at e <;> cases e
    rfl
  | setReg r v => cases e; rfl
  | setPc v => cases e; rfl
  | setPriv m =>
    simp only [envAct, envSetPriv] at e
    split at e <;> cases e
    rfl
  | setTvm v => obtain ⟨rfl, -⟩ := envSetTvm_ok e; rfl
  | retire => cases e; rfl

/-- Only `setTvm`, in M-mode, changes `mstatus`, and only `retire` changes `instret`. -/
theorem envAct_counters {a : EnvAct} {s t : State} (e : envAct a s = .ok t) :
    (t.hart.mstatus = s.hart.mstatus ∨ s.hart.priv = .M) ∧
      t.hart.instret = if a = .retire then s.hart.instret + 1#64 else s.hart.instret := by
  cases a with
  | fetch =>
    simp only [envAct, envFetch] at e
    split at e
    · cases e
    · next h => cases e; rw [(fetch_readsOnly h).hart]; exact ⟨.inl rfl, rfl⟩
  | store va n v =>
    obtain ⟨pa, s1, h, -, rfl⟩ := envStore_ok e
    have := (translate_readsOnly h).hart
    simp only [memWrite_hart_mstatus, memWrite_hart_instret]
    rw [this]
    exact ⟨.inl rfl, rfl⟩
  | load va n =>
    obtain ⟨pa, s1, h, -, rfl⟩ := envLoad_ok e
    have := (translate_readsOnly h).hart
    dsimp only
    rw [this]
    exact ⟨.inl rfl, rfl⟩
  | writeSatp v => obtain ⟨rfl, -⟩ := envWriteSatp_ok e; exact ⟨.inl rfl, rfl⟩
  | writeSstatus sum mxr => cases e; exact ⟨.inl rfl, rfl⟩
  | dataFence => cases e; exact ⟨.inl rfl, rfl⟩
  | sendIpi dest =>
    simp only [envAct, envSendIpi] at e
    split at e <;> cases e
    exact ⟨.inl rfl, rfl⟩
  | takeIpi pc m => rw [(envTakeIpi_ok e).2]; exact ⟨.inl rfl, rfl⟩
  | observe k => obtain ⟨q, -, -, rfl⟩ := envObserve_ok e; exact ⟨.inl rfl, rfl⟩
  | agentStore pa n v =>
    simp only [envAct, envAgentStore] at e
    split at e <;> cases e
    exact ⟨.inl rfl, rfl⟩
  | setReg r v => cases e; exact ⟨.inl (by simp), by simp⟩
  | setPc v => cases e; exact ⟨.inl rfl, rfl⟩
  | setPriv m =>
    simp only [envAct, envSetPriv] at e
    split at e <;> cases e
    exact ⟨.inl rfl, rfl⟩
  | setTvm v => obtain ⟨rfl, h⟩ := envSetTvm_ok e; exact ⟨.inr h, rfl⟩
  | retire => cases e; exact ⟨.inl rfl, rfl⟩

end Sys2Proof.Machine
end

