-- ==== Sys2Proof/Laws/Pending.lean ====
section
/-! SUPPORT. What the stores in flight carry: the bytes a data fence owes, and what becomes of them when
a store is made, seen or published. -/

namespace Sys2Proof.Machine

@[simp] theorem Pending.mark_src (q r : Pending) (b : Bool) : (q.mark b r).src = r.src := by
  unfold Pending.mark; split <;> rfl

@[simp] theorem Pending.mark_dst (q r : Pending) (b : Bool) : (q.mark b r).dst = r.dst := by
  unfold Pending.mark; split <;> rfl

@[simp] theorem Pending.mark_pa (q r : Pending) (b : Bool) : (q.mark b r).pa = r.pa := by
  unfold Pending.mark; split <;> rfl

/-- Marking changes what is owed, never the bytes. -/
@[simp] theorem Pending.mark_vals (q r : Pending) (b : Bool) :
    (q.mark b r).bytes.map PendingByte.val = r.bytes.map PendingByte.val := by
  unfold Pending.mark
  split
  · apply List.ext_getElem?
    intro i
    simp only [List.getElem?_map, List.getElem?_mapIdx, Option.map_map]
    congr 1
    funext c
    simp only [Function.comp]
    split <;> rfl
  · rfl

/-- What a marked store has for an address. -/
theorem Pending.byteFor_mark (q r : Pending) (b : Bool) (src dst a : Nat) :
    (q.mark b r).byteFor src dst a = (r.byteFor src dst a).map fun c =>
      if src = q.src ∧ dst = q.dst ∧ q.covers a = true then { c with owed := b } else c := by
  unfold Pending.byteFor
  rw [Pending.mark_src, Pending.mark_dst, Pending.mark_pa]
  split
  · next h =>
    obtain ⟨rfl, rfl, hp⟩ := h
    unfold Pending.mark
    split
    · next hq =>
      simp only [List.getElem?_mapIdx, hq, true_and, Nat.add_sub_cancel' hp]
    · next hq =>
      rw [show (fun c : PendingByte => if r.src = q.src ∧ r.dst = q.dst ∧ q.covers a = true then
        { c with owed := b } else c) = id by funext c; rw [if_neg (by tauto)]; rfl]
      simp
  · rfl

/-- A list whose elements are all equal, and which has one, ends in it. -/
theorem getLast?_of_all_eq {α : Type} {l : List α} {x : α} (hx : x ∈ l) (h : ∀ y ∈ l, y = x) :
    l.getLast? = some x := by
  cases e : l.getLast? with
  | none => rw [List.getLast?_eq_none_iff.1 e] at hx; cases hx
  | some y => rw [h y (List.mem_of_getLast? e)]

/-- What the stores in flight have for an address after one of them became visible. -/
theorem byteFor_markSeen (q : Pending) (k : Nat) (l : List Pending) (src dst a : Nat) :
    (markSeen q k l).filterMap (Pending.byteFor src dst a) =
      ((l.take (k + 1)).filterMap (Pending.byteFor src dst a)).map (fun c =>
        if src = q.src ∧ dst = q.dst ∧ q.covers a = true then { c with owed := false } else c) ++
      ((l.drop (k + 1)).filterMap (Pending.byteFor src dst a)).map (fun c =>
        if src = q.src ∧ dst = q.dst ∧ q.covers a = true then { c with owed := true } else c) := by
  have h : ∀ (b : Bool) (m : List Pending),
      (m.map (q.mark b)).filterMap (Pending.byteFor src dst a) =
        (m.filterMap (Pending.byteFor src dst a)).map fun c =>
          if src = q.src ∧ dst = q.dst ∧ q.covers a = true then { c with owed := b } else c := by
    intro b m
    rw [List.filterMap_map, List.map_filterMap]
    congr 1
    funext r
    exact Pending.byteFor_mark q r b src dst a
  simp only [markSeen, List.filterMap_append, h]

/-- Seeing a store changes no byte of a store in flight. -/
theorem newestByte_markSeen (q : Pending) (k : Nat) (l : List Pending) (src dst a : Nat) :
    newestByte src dst a (markSeen q k l) = newestByte src dst a l := by
  have h : ∀ b : Bool, (fun c : PendingByte => PendingByte.val
      (if src = q.src ∧ dst = q.dst ∧ q.covers a = true then { c with owed := b } else c)) =
        PendingByte.val := by
    intro b
    funext c
    split <;> rfl
  simp only [newestByte, ← List.getLast?_map, byteFor_markSeen, List.map_append, List.map_map,
    Function.comp_def, h]
  rw [← List.map_append, ← List.filterMap_append, List.take_append_drop]

/-- Seeing a store changes nothing of what a data fence owes for the bytes it does not cover, to another
hart, or from another. -/
theorem owedByte_markSeen_other {q : Pending} {src dst a : Nat}
    (h : ¬ (src = q.src ∧ dst = q.dst ∧ q.covers a = true)) (k : Nat) (l : List Pending) :
    owedByte src dst a (markSeen q k l) = owedByte src dst a l := by
  simp only [owedByte, byteFor_markSeen, if_neg h, List.map_id']
  rw [← List.filterMap_append, List.take_append_drop]

/-- What a data fence owes, after a store was seen, of the bytes it covers: the newest byte, if a newer
store than the seen one has it. -/
theorem owedByte_markSeen_covered {q : Pending} {a : Nat} (h : q.covers a = true) (k : Nat)
    (l : List Pending) :
    owedByte q.src q.dst a (markSeen q k l) = newestByte q.src q.dst a (l.drop (k + 1)) := by
  have h1 : ∀ m : List PendingByte,
      (m.map fun c => ({ c with owed := false } : PendingByte)).filter PendingByte.owed = [] := by
    intro m; simp
  have h2 : ∀ m : List PendingByte,
      (m.map fun c => ({ c with owed := true } : PendingByte)).filter PendingByte.owed =
        m.map fun c => { c with owed := true } := by
    intro m; simp
  simp only [owedByte, byteFor_markSeen, h, and_self, if_true, List.filter_append, h1, h2,
    List.nil_append, newestByte, ← List.getLast?_map, List.map_map, Function.comp_def]

/-- A data fence delivers to a hart, for each byte, the newest one it owes. -/
theorem seeFrom_read (src : Nat) (h : Hart) (l : List Pending) (a : Nat) (hm : h.mem.wf = true) :
    (seeFrom src h l).mem.read a = (owedByte src h.id a l).getD (h.mem.read a) := by
  induction l generalizing h with
  | nil => rfl
  | cons q l ih =>
    have hd : owedByte src h.id a (q :: l) = (owedByte src h.id a l).or
        (((q.byteFor src h.id a).filter PendingByte.owed).map PendingByte.val) := by
      simp only [owedByte, List.filterMap_cons]
      cases q.byteFor src h.id a with
      | none => simp
      | some c =>
        by_cases hc : c.owed = true
        · dsimp only
          rw [List.filter_cons_of_pos hc, List.getLast?_cons, Option.filter_some_pos hc]
          cases ((l.filterMap (Pending.byteFor src h.id a)).filter PendingByte.owed).getLast? <;> rfl
        · dsimp only
          rw [List.filter_cons_of_neg hc, Option.filter_some_neg (by simpa using hc),
            Option.map_none, Option.or_none]
    simp only [seeFrom]
    rw [hd]
    by_cases hc : q.src = src ∧ q.dst = h.id
    · rw [if_pos hc, ih _ (Memory.wf_writeSome _ _ hm)]
      show (owedByte src h.id a l).getD ((h.mem.writeSome q.pa _).read a) = _
      rw [Memory.read_writeSome hm]
      cases owedByte src h.id a l with
      | some b => rfl
      | none =>
        simp only [Option.getD_none, Option.none_or, Pending.byteFor, hc, true_and,
          List.getElem?_map]
        split
        · cases q.bytes[a - q.pa]? with
          | none => rfl
          | some c => cases ho : c.owed <;> simp [Option.filter, ho]
        · rfl
    · rw [if_neg hc, ih _ hm]
      have : q.byteFor src h.id a = none := if_neg (by tauto)
      simp [this]

/-- The pieces of a store hold its bytes, each at its address, and no others. -/
theorem storePieces_byte (p : Params) (pa n : Nat) (bytes : List Byte) (a : Nat) (b : Byte) :
    (∃ q ∈ storePieces p pa n bytes, q.1 ≤ a ∧ q.2[a - q.1]? = some b) ↔
      pa ≤ a ∧ bytes[a - pa]? = some b := by
  unfold storePieces
  dsimp only
  split
  · simp
  · constructor
    · rintro ⟨q, hq, h1, h2⟩
      obtain ⟨⟨c, i⟩, hc, rfl⟩ := List.mem_map.1 hq
      have hi := List.mem_zipIdx_iff_getElem?.1 hc
      dsimp only at h1 h2 hi
      have : a - (pa + i) = 0 := by
        by_contra hne
        rw [List.getElem?_eq_none (by simp; omega)] at h2
        cases h2
      have e : a = pa + i := by omega
      subst e
      simp only [Nat.sub_self, List.getElem?_cons_zero] at h2
      exact ⟨by omega, by rw [Nat.add_sub_cancel_left, hi, h2]⟩
    · rintro ⟨h1, h2⟩
      refine ⟨(pa + (a - pa), [b]), List.mem_map.2 ⟨(b, a - pa),
        List.mem_zipIdx_iff_getElem?.2 h2, rfl⟩, by dsimp only; omega, ?_⟩
      simp [Nat.add_sub_cancel' h1]

/-- After a store, the newest byte for an address it covers is the store's, to every other hart, and a
data fence owes it. -/
theorem memWrite_newest (s : State) (pa n v : Nat) {g : Hart} (hg : g ∈ s.others) {k : Nat}
    (hk : k < n) :
    newestByte s.hart.id g.id (pa + k) (memWrite s pa n v).inFlight = (leBytes n v)[k]? ∧
      owedByte s.hart.id g.id (pa + k) (memWrite s pa n v).inFlight = (leBytes n v)[k]? := by
  obtain ⟨b, hb⟩ : ∃ b, (leBytes n v)[k]? = some b :=
    ⟨_, List.getElem?_eq_getElem (by simpa using hk)⟩
  have hin : ∃ new, (memWrite s pa n v).inFlight = s.inFlight ++ new ∧
      ({ val := b, owed := true } : PendingByte) ∈
        new.filterMap (Pending.byteFor s.hart.id g.id (pa + k)) ∧
      ∀ c ∈ new.filterMap (Pending.byteFor s.hart.id g.id (pa + k)),
        c = { val := b, owed := true } := by
    refine ⟨_, rfl, ?_, ?_⟩
    · obtain ⟨q, hq, h1, h2⟩ := (storePieces_byte s.params pa n (leBytes n v) (pa + k) b).2
        ⟨by omega, by rw [Nat.add_sub_cancel_left]; exact hb⟩
      refine List.mem_filterMap.2 ⟨_, List.mem_flatMap.2 ⟨g, hg, List.mem_map_of_mem hq⟩, ?_⟩
      simp [Pending.byteFor, h1, owedBytes, h2]
    · intro c hc
      obtain ⟨r, hr, hrc⟩ := List.mem_filterMap.1 hc
      obtain ⟨g', -, hr⟩ := List.mem_flatMap.1 hr
      obtain ⟨q, hq, rfl⟩ := List.mem_map.1 hr
      simp only [Pending.byteFor] at hrc
      split at hrc
      · next h =>
        simp only [owedBytes, List.getElem?_map, Option.map_eq_some_iff] at hrc
        obtain ⟨b', hb', rfl⟩ := hrc
        have := ((storePieces_byte s.params pa n (leBytes n v) (pa + k) b').1
          ⟨q, hq, h.2.2, hb'⟩).2
        rw [Nat.add_sub_cancel_left, hb] at this
        rw [Option.some.inj this]
      · cases hrc
  obtain ⟨new, h1, h2, h3⟩ := hin
  have h4 : (new.filterMap (Pending.byteFor s.hart.id g.id (pa + k))).filter PendingByte.owed =
      new.filterMap (Pending.byteFor s.hart.id g.id (pa + k)) :=
    List.filter_eq_self.2 fun c hc => by rw [h3 c hc]
  rw [h1, hb]
  simp only [newestByte, owedByte, List.filterMap_append, List.filter_append, h4,
    List.getLast?_append, getLast?_of_all_eq h2 h3]
  exact ⟨rfl, rfl⟩

end Sys2Proof.Machine
end

