-- ==== Sys2Proof/Laws/PerInstr.lean ====
section
/-! SUPPORT. Statements made per instruction: the family `EncodeMask`. -/

namespace Sys2Proof.Laws

/-- The encoding of an instruction has the fixed bits the opcode table gives it. -/
def EncodeMask.Statement (i : Instr) : Prop := encode i &&& sfenceMask = sfenceMatch

theorem EncodeMask.sfenceVma (rs1 rs2 : Reg) : EncodeMask.Statement (.sfenceVma rs1 rs2) := by
  unfold EncodeMask.Statement
  revert rs1 rs2
  decide +kernel

end Sys2Proof.Laws
end

