-- ==== Sys2Proof/Laws/Scheme.lean ====
section
/-! SUPPORT. The standard schemes are well formed (00_scope.md R7). -/

namespace Sys2Proof.Machine

/-- Two numbers in one block of a smaller power are in one block of a larger. -/
theorem div_pow_eq {a b m n : Nat} (hmn : m ≤ n) (h : a / 2 ^ m = b / 2 ^ m) :
    a / 2 ^ n = b / 2 ^ n := by
  obtain ⟨k, rfl⟩ := Nat.exists_eq_add_of_le hmn
  rw [Nat.pow_add, ← Nat.div_div_eq_div_mul, h, Nat.div_div_eq_div_mul]

theorem sv64_wf (levels modeNum : Nat) (hl : 0 < levels) (hm : modeNum ≠ 0) :
    (sv64 levels modeNum).Wf where
  levels_pos := hl
  leaf_last := fun _ _ => by simp [sv64, standardLeaf]
  modeNum_ne := hm
  span_pos := fun l => Nat.two_pow_pos _
  span_dvd := fun l => Nat.pow_dvd_pow 2 (by omega)
  valid_span := by
    intro l hlt a b h
    have hlt : l < levels := hlt
    have h : a.toNat / 2 ^ (12 + 9 * l) = b.toNat / 2 ^ (12 + 9 * l) := h
    have := div_pow_eq (n := 11 + 9 * levels) (by omega) h
    simp only [sv64, this]

theorem sv32_wf : sv32.Wf where
  levels_pos := by decide
  leaf_last := fun _ _ => by simp [sv32, standardLeaf]
  modeNum_ne := by decide
  span_pos := fun l => Nat.two_pow_pos _
  span_dvd := fun l => Nat.pow_dvd_pow 2 (by omega)
  valid_span := by
    intro l hlt a b h
    have hlt : l < 2 := hlt
    have h : a.toNat / 2 ^ (12 + 10 * l) = b.toNat / 2 ^ (12 + 10 * l) := h
    have := div_pow_eq (n := 32) (by omega) h
    simp only [sv32, decide_eq_decide]
    omega

/-- Every scheme but the unknown one is well formed. -/
theorem schemeOf_wf {k : SchemeKind} (h : k ≠ .other) : (schemeOf k).Wf := by
  cases k with
  | sv32 => exact sv32_wf
  | sv39 => exact sv64_wf 3 8 (by decide) (by decide)
  | sv48 => exact sv64_wf 4 9 (by decide) (by decide)
  | sv57 => exact sv64_wf 5 10 (by decide) (by decide)
  | other => exact absurd rfl h

end Sys2Proof.Machine
end

