-- ==== Sys2Proof/Laws/Reference.lean ====
section
/-! SUPPORT. What the functions of the reference model compute, said once. -/

namespace Sys2Proof.Machine

theorem spanBase_toNat (sc : Scheme) (l : Nat) (va : Word) :
    (spanBase sc l va).toNat = va.toNat - va.toNat % sc.span l := by
  have := va.isLt
  simp only [spanBase, BitVec.toNat_ofNat]
  exact Nat.mod_eq_of_lt (by omega)

/-- The span base is aligned. -/
theorem spanBase_aligned (sc : Scheme) (l : Nat) (va : Word) :
    (spanBase sc l va).toNat % sc.span l = 0 := by
  rw [spanBase_toNat, Nat.sub_mod_eq_zero_of_mod_eq (Nat.mod_mod _ _).symm]

/-- An aligned range that contains an address starts at its span base. -/
theorem eq_spanBase {sc : Scheme} {o : Observation} {va : Word}
    (ha : o.vbase.toNat % sc.span o.level = 0) (hr : inRange sc o va = true) :
    o.vbase = spanBase sc o.level va := by
  simp only [inRange, Bool.and_eq_true, decide_eq_true_eq] at hr
  obtain ⟨k, hk⟩ := Nat.dvd_of_mod_eq_zero ha
  apply BitVec.eq_of_toNat_eq
  rw [spanBase_toNat]
  have hlt : va.toNat - o.vbase.toNat < sc.span o.level := by omega
  have : va.toNat % sc.span o.level = va.toNat - o.vbase.toNat := by
    conv_lhs => rw [show va.toNat = (va.toNat - o.vbase.toNat) + sc.span o.level * k by omega]
    rw [Nat.add_mul_mod_self_left, Nat.mod_eq_of_lt hlt]
  omega

/-- The range of an observation based at the span base contains the address. -/
theorem inRange_spanBase {sc : Scheme} {o : Observation} {va : Word}
    (hp : 0 < sc.span o.level) (h : o.vbase = spanBase sc o.level va) :
    inRange sc o va = true := by
  have := Nat.mod_lt va.toNat hp
  simp only [inRange, h, spanBase_toNat, Bool.and_eq_true, decide_eq_true_eq]
  omega

/-- In a well-formed scheme a range based at the span base of a valid address holds only valid
addresses. -/
theorem range_valid {sc : Scheme} (wf : sc.Wf) {o : Observation} {va : Word}
    (hl : o.level < sc.levels) (h : o.vbase = spanBase sc o.level va)
    (hv : sc.validVA (spanBase sc o.level va) = true) :
    ∀ v, inRange sc o v = true → sc.validVA v = true := by
  intro v hr
  have ha : o.vbase.toNat % sc.span o.level = 0 := by rw [h]; exact spanBase_aligned _ _ _
  have hb : inRange sc o o.vbase = true := by
    have := wf.span_pos o.level
    simp [inRange, this]
  rw [← hv, ← h]
  apply wf.valid_span o.level hl
  simp only [inRange, Bool.and_eq_true, decide_eq_true_eq] at hr
  obtain ⟨k, hk⟩ := Nat.dvd_of_mod_eq_zero ha
  have hp := wf.span_pos o.level
  have e1 : o.vbase.toNat / sc.span o.level = k := by
    rw [hk]; exact Nat.mul_div_cancel_left k hp
  rw [e1]
  apply Nat.div_eq_of_lt_le
  · rw [Nat.mul_comm]; omega
  · rw [Nat.succ_mul, Nat.mul_comm]; omega

/-- What `readsOf` lists. -/
theorem mem_readsOf {p : Params} {h : Hart} {va : Word} {l table : Nat} {asid : Word} {g : Bool}
    {t : Nat} {o : Observation} :
    o ∈ readsOf p h va l table asid g t ↔
      (paramScheme p).validVA (spanBase (paramScheme p) l va) = true ∧
      o.born ≤ t ∧ heldAt p h o ∧ o.asid = asid ∧ o.level = l ∧
      o.vbase = spanBase (paramScheme p) l va ∧
      o.slot = slotOf (paramScheme p) table l o.vbase ∧
      o.gpath = (g || (paramScheme p).gBit o.pte) := by
  simp only [readsOf]
  constructor
  · intro ho
    split at ho
    · next hc =>
      simp only [List.mem_filterMap, List.mem_range, Option.map_eq_some_iff] at ho
      obtain ⟨b, hb, sn, hsn, rfl⟩ := ho
      exact ⟨hc, Nat.le_of_lt_succ hb, ⟨sn, hsn, rfl⟩, rfl, rfl, rfl, rfl, rfl⟩
    · simp at ho
  · rintro ⟨hv, hb, ⟨sn, hsn, hval⟩, ha, hl, hvb, hs, hg⟩
    rw [hvb] at hs
    rw [if_pos hv]
    simp only [List.mem_filterMap, List.mem_range, Option.map_eq_some_iff]
    refine ⟨o.born, by omega, sn, hsn, ?_⟩
    rw [← hs, hval, ← hg]
    cases o
    simp_all

/-- What `launchReads` lists. -/
theorem mem_launchReads {p : Params} {h : Hart} {va : Word} {l : Nat} {o : Observation} :
    o ∈ launchReads p h va l ↔
      o ∈ h.initialObs ∧ o.level = l ∧ o.born = 0 ∧ inRange (paramScheme p) o va = true := by
  simp [launchReads, and_assoc]

/-- A usable observation is unfenced. -/
theorem UsableAt.unfenced {p : Params} {h : Hart} {d n : Nat} {o : Observation}
    (u : UsableAt p h d o n) : unfenced (paramScheme p) h.fenceLog o n = true := by
  cases d <;>
  · obtain ⟨t, -, -, -, h⟩ := u
    exact h

/-- A usable observation is not from the future. -/
theorem UsableAt.born_le {p : Params} {h : Hart} {d n : Nat} {o : Observation}
    (u : UsableAt p h d o n) : o.born ≤ n := by
  cases d <;>
  · obtain ⟨t, h1, h2, -⟩ := u
    omega

/-- What "unfenced" says. -/
theorem unfenced_iff {sc : Scheme} {log : List FenceRec} {o : Observation} {n : Nat} :
    unfenced sc log o n = true ↔
      ∀ f ∈ log, o.born < f.time → f.time ≤ n → subsumes sc f o = false := by
  simp only [unfenced, List.all_eq_true, Bool.not_eq_true', Bool.and_eq_false_iff,
    decide_eq_false_iff_not]
  constructor
  · intro h f hf h1 h2
    rcases h f hf with (h | h) | h
    · exact absurd h1 h
    · exact absurd h2 h
    · exact h
  · intro h f hf
    by_cases h1 : o.born < f.time
    · by_cases h2 : f.time ≤ n
      · exact .inr (h f hf h1 h2)
      · exact .inl (.inr h2)
    · exact .inl (.inl h1)

/-- A usable observation of a later time than 0 was read from memory. -/
theorem UsableAt.held {p : Params} {h : Hart} {d n : Nat} {o : Observation}
    (u : UsableAt p h d o n) (hb : 0 < o.born) : heldAt p h o := by
  cases d with
  | zero =>
    obtain ⟨t, -, -, h3 | h3, -⟩ := u
    · obtain ⟨sn, -, -, -, -, -, -, hr⟩ := h3
      exact hr.2.1
    · exact absurd h3.2.2 (by omega)
  | succ d =>
    obtain ⟨t, -, -, h3 | h3, -⟩ := u
    · obtain ⟨q, -, -, -, -, -, -, -, hr⟩ := h3
      exact hr.2.1
    · exact absurd h3.2.2 (by omega)

/-- A fence that names an ASID subsumes no global observation. -/
theorem subsumes_global {sc : Scheme} {f : FenceRec} {o : Observation} {a : Word}
    (hf : f.asid = some a) (ho : o.gpath = true) : subsumes sc f o = false := by
  unfold subsumes
  rw [hf]
  cases f.va <;> simp [ho]

/-- A fence that names an address subsumes no non-leaf observation. -/
theorem subsumes_nonleaf {sc : Scheme} {f : FenceRec} {o : Observation} {v : Word}
    (hf : f.va = some v) (ho : obsClass sc o = .nonleaf) : subsumes sc f o = false := by
  unfold subsumes
  rw [hf]
  cases f.asid <;> simp [terminal, ho]

/-- An aligned range of a well-formed scheme based at a valid address was read as `ReadOK` asks. -/
theorem readOK_intro {p : Params} {h : Hart} {o : Observation} {t : Nat} (wf : (paramScheme p).Wf)
    (hl : o.level < (paramScheme p).levels) (hb : o.born ≤ t) (hh : heldAt p h o)
    (hv : o.vbase = spanBase (paramScheme p) o.level o.vbase)
    (hva : (paramScheme p).validVA o.vbase = true) : ReadOK p h o t := by
  refine ⟨hb, hh, ?_, range_valid wf hl hv (by rw [← hv]; exact hva)⟩
  rw [hv]
  exact spanBase_aligned _ _ _

/-- A usable observation read from the table `satp` points to. -/
theorem usable_of_root {p : Params} {h : Hart} {o : Observation} {t n : Nat} (ht : o.born ≤ t)
    (hn : t ≤ n) (hr : FromRoot p h o t)
    (hu : unfenced (paramScheme p) h.fenceLog o n = true) : Usable p h o n := by
  have hl : o.level + 1 = (paramScheme p).levels := by
    obtain ⟨sn, -, -, h, -⟩ := hr
    exact h
  refine ⟨by omega, ?_⟩
  rw [show (paramScheme p).levels - 1 - o.level = 0 by omega]
  exact ⟨t, ht, hn, .inl hr, hu⟩

/-- A usable observation read from a table that a usable entry points to. -/
theorem usable_of_parent {p : Params} {h : Hart} {q o : Observation} {t n : Nat} (ht : o.born ≤ t)
    (hn : t ≤ n) (hq : Usable p h q t) (hr : FromParent p h q o t)
    (hu : unfenced (paramScheme p) h.fenceLog o n = true) : Usable p h o n := by
  have hl : q.level = o.level + 1 := hr.2.1
  have hq1 := hq.1
  have hq2 := hq.2
  refine ⟨by omega, ?_⟩
  rw [show (paramScheme p).levels - 1 - o.level = ((paramScheme p).levels - 1 - q.level) + 1 by
    omega]
  exact ⟨t, ht, hn, .inl ⟨q, hq2, hr⟩, hu⟩

end Sys2Proof.Machine
end

