-- ==== Sys2Proof/Laws/Step.lean ====
section
/-! SUPPORT. What one step can do to the machine, said once. -/

namespace Sys2Proof.Machine

theorem Hart.tick_timed {now : Nat} {h : Hart} (e : h.timed now = true) :
    h.tick.timed (now + 1) = true := by
  simp only [Hart.timed, Hart.tick, Bool.and_eq_true, decide_eq_true_eq, List.all_eq_true,
    List.length_append, List.length_singleton] at e ⊢
  exact ⟨by omega, fun f hf => Nat.le_succ_of_le (e.2 f hf)⟩

theorem Hart.tick_memWf {h : Hart} (e : h.memWf = true) : h.tick.memWf = true := by
  simp only [Hart.memWf, Hart.tick, Hart.snap, Bool.and_eq_true, List.all_append, List.all_cons,
    List.all_nil] at e ⊢
  tauto

theorem Hart.tick_legal {p : Params} {h : Hart} (e : h.legal p = true) :
    h.tick.legal p = true := by
  simp only [Hart.legal, Hart.tick, Hart.snap, Bool.and_eq_true, List.all_append, List.all_cons,
    List.all_nil] at e ⊢
  tauto

/-- What a completed SFENCE.VMA leaves of the moving hart: its log with at most one record more, of
this moment and legal, `pc` moved, and one more retired instruction. -/
theorem execSfenceVma_hart {rs1 rs2 : Reg} {s t : State} (e : execSfenceVma rs1 rs2 s = .next t) :
    t = { s with hart := t.hart } ∧
      t.hart = { s.hart with
        pc := t.hart.pc, fenceLog := t.hart.fenceLog, instret := s.hart.instret + 1#64 } ∧
      trunc s.params t.hart.pc = t.hart.pc ∧
      (t.hart.fenceLog = s.hart.fenceLog ∨ ∃ f, t.hart.fenceLog = s.hart.fenceLog ++ [f] ∧
        f.time = s.now ∧ fenceRecLegal s.params f = true) := by
  obtain ⟨-, rfl⟩ := execSfenceVma_next e
  rcases recordFence_cases (vaSel rs1 s) (asidSel rs2 s) s with ⟨hv, hr⟩ | ⟨-, hr⟩
  · rw [hr]
    refine ⟨rfl, rfl, by simp, .inr ⟨_, rfl, rfl, ?_⟩⟩
    simp only [fenceRecLegal, hv, Bool.true_and, asidSel]
    by_cases h : rs2 = 0#5 <;> simp [h, asidOf]
  · rw [hr]
    exact ⟨rfl, rfl, by simp, .inl rfl⟩

/-- What a step does to the machine: `hs` is the machine after the switch of harts, before time
advanced. -/
structure StepEffects (s hs t : State) : Prop where
  perm : hs.harts.Perm s.harts
  params : t.params = s.params
  now : t.now = s.now + 1
  agenda : t.agenda = s.agenda.tail
  id : t.hart.id = hs.hart.id
  past : t.hart.past = hs.hart.timeline
  initialObs : t.hart.initialObs = hs.hart.initialObs
  log : t.hart.fenceLog = hs.hart.fenceLog ∨ ∃ f, t.hart.fenceLog = hs.hart.fenceLog ++ [f] ∧
    f.time = t.now ∧ fenceRecLegal s.params f = true
  mstatus : t.hart.mstatus = hs.hart.mstatus ∨ hs.hart.priv = .M
  memWf : hs.hart.memWf = true → t.hart.memWf = true
  legal : hs.hart.legal s.params = true → t.hart.legal s.params = true
  others : ∃ f : Hart → Hart, t.others = hs.others.map (fun g => f g.tick) ∧
    ∀ g, f g = { g with mem := (f g).mem } ∧ (g.mem.wf = true → (f g).mem.wf = true)

/-- What an environment action after a tick can do is what a step can do. -/
theorem EnvEffects.step {s hs t : State} (hp : hs.harts.Perm s.harts)
    (hs' : hs = { s with hart := hs.hart, others := hs.others, agenda := s.agenda.tail })
    (e : EnvEffects (tick hs) t) (hm : t.hart.mstatus = hs.hart.mstatus ∨ hs.hart.priv = .M) :
    StepEffects s hs t where
  perm := hp
  params := by rw [e.params, hs']; rfl
  now := by rw [e.now, hs']; rfl
  agenda := by rw [e.agenda, hs']; rfl
  id := e.id
  past := e.past
  initialObs := e.initialObs
  log := .inl e.fenceLog
  mstatus := hm
  memWf := fun h => by
    have ht := Hart.tick_memWf h
    simp only [Hart.memWf, Bool.and_eq_true] at ht ⊢
    exact ⟨e.memWf ht.1, by rw [e.past]; exact ht.2⟩
  legal := fun h => by
    have := e.legal
    rw [show (tick hs).params = s.params by rw [hs']; rfl] at this
    exact this (Hart.tick_legal h)
  others := by
    obtain ⟨f, hf, hf'⟩ := e.others
    exact ⟨f, by rw [hf]; simp [tick], hf'⟩

/-- What a step that gives a next state can do. -/
theorem step_effects {s t : State} (e : step s = .next t) : ∃ hs, StepEffects s hs t := by
  obtain ⟨a, s1, h1, h2⟩ := step_next e
  obtain ⟨hs, hp, rfl, hs'⟩ := nextTurn_ok h1
  refine ⟨hs, ?_⟩
  cases a with
  | some a => exact (envAct_effects h2).step hp hs' (envAct_counters h2).1
  | none =>
    obtain ⟨i, s2, hf, hx⟩ := h2
    have hm := (fetchInstr_readsOnly hf).hart
    have r := ((fetchInstr_readsOnly hf).env).step hp hs' (.inl (by rw [hm]; rfl))
    cases i with
    | sfenceVma rs1 rs2 =>
      obtain ⟨h1, h2, h3, h4⟩ := execSfenceVma_hart (show execSfenceVma rs1 rs2 s2 = .next t from hx)
      have hlog : s2.hart.fenceLog = hs.hart.fenceLog := by rw [hm]; rfl
      refine ⟨r.perm, by rw [h1]; exact r.params, by rw [h1]; exact r.now,
        by rw [h1]; exact r.agenda, by rw [h2]; exact r.id, by rw [h2]; exact r.past,
        by rw [h2]; exact r.initialObs, ?_,
        by rw [h2]; exact r.mstatus, ?_, ?_, by rw [h1]; exact r.others⟩
      · rw [← hlog, show t.now = s2.now by rw [h1], ← r.params]
        exact h4
      · intro h
        have := r.memWf h
        rw [h2]
        exact this
      · intro h
        have := r.legal h
        rw [r.params] at h3 h4
        simp only [Hart.legal, Bool.and_eq_true, decide_eq_true_eq] at this ⊢
        rw [h2]
        dsimp only
        rcases h4 with h4 | ⟨f, h4, -, hl⟩
        · rw [h4]; exact ⟨this.1, h3.symm⟩
        · rw [h4]
          simp only [List.all_append, List.all_cons, List.all_nil, hl, Bool.and_true]
          exact ⟨this.1, h3.symm⟩

end Sys2Proof.Machine
end

