-- ==== Sys2Proof/Tests/Slice0.lean ====
section
/-! SUPPORT. Tests on words and values of the spec, and for every statement with hypotheses a concrete
case that meets them together (`test_<Name>_…`). -/

namespace Sys2Proof.Tests

open Machine

/-! What is ill formed is refused. -/

theorem test_wellFormed_sfenceVma : (Instr.sfenceVma 31#5 0#5).wellFormed = true := by decide

/-- 30_encoding.md R111: opcode 1111011, rd = 1, funct3 = 001, funct7 = 0001000 (T-DEC). -/
theorem test_wordWellFormed_refuses :
    opcodeOk 0x1200007B#32 = false ∧ rdOk 0x120000F3#32 = false ∧
      funct3Ok 0x12001073#32 = false ∧ funct7Ok 0x10000073#32 = false ∧
      wordWellFormed 0x12000073#32 = true := by decide

/-- 00_scope.md R5, R7: ASIDLEN 17 above ASIDMAX 16, a 64-bit scheme at XLEN 32, a vector that is not
aligned or not an XLEN-bit value. -/
theorem test_paramsWellFormed_refuses :
    Params.default.wellFormed = true ∧
      asidlenOk { Params.default with asidlen := 17 } = false ∧
      schemeFitsXlen { Params.default with xlen := .rv32 } = false ∧
      resetVectorOk { Params.default with resetVector := 2#64 } = false ∧
      resetVectorOk { Params.default with xlen := .rv32, resetVector := 0x100000000#64 } = false := by
  decide

/-- 00_scope.md R5: no standard scheme has more ASID bits than XLEN. -/
theorem test_asidmaxOk_standard :
    asidmaxOk { Params.default with xlen := .rv32, scheme := .sv32 } = true ∧
      asidmaxOk Params.default = true := by decide

/-! Decoding, on the words of 95_test_vectors.md 2.1 and 2.2 and the fields of 30_encoding.md R111. -/

/-- funct7 = 0001001, rs2, rs1, funct3 = 000, rd = 00000, opcode = 1110011. -/
theorem test_decode_fields :
    decodeWord (0b0001001#7 ++ 0b01011#5 ++ 0b01010#5 ++ 0b000#3 ++ 0b00000#5 ++ 0b1110011#7) =
        .ok (.sfenceVma 10#5 11#5) ∧
      decodeWord (0b0001001#7 ++ 0b00001#5 ++ 0b00000#5 ++ 0b000#3 ++ 0b00000#5 ++ 0b1110011#7) =
        .ok (.sfenceVma 0#5 1#5) := by decide

/-- T-ENC. -/
theorem test_decode_words :
    decodeWord 0x12000073#32 = .ok (.sfenceVma 0#5 0#5) ∧
      decodeWord 0x12050073#32 = .ok (.sfenceVma 10#5 0#5) ∧
      decodeWord 0x12B00073#32 = .ok (.sfenceVma 0#5 11#5) ∧
      decodeWord 0x12208073#32 = .ok (.sfenceVma 1#5 2#5) ∧
      encode (.sfenceVma 31#5 31#5) = 0x13FF8073#32 ∧
      encodeBytes (.sfenceVma 10#5 11#5) = [0x73#8, 0x00#8, 0xB5#8, 0x12#8] := by decide

/-- T-DEC. -/
theorem test_decode_rejects :
    decodeWord 0x12007073#32 = .error .systemFunct3 ∧
      decodeWord 0x12000072#32 = .error .compressed ∧
      decodeWord 0x1200007B#32 = .error .outOfScope ∧
      decodeWord 0x10000073#32 = .error .outOfScope ∧
      decodeWord 0x14000073#32 = .error .outOfScope ∧
      decodeWord 0x92000073#32 = .error .outOfScope ∧
      decodeWord 0x18000073#32 = .error .svinval ∧
      decodeWord 0x18100073#32 = .error .svinval := by decide

theorem test_decode_bytes :
    decodeBytes [0x73#8, 0x00#8, 0xB5#8, 0x12#8, 0x01#8] =
        .ok (.sfenceVma 10#5 11#5, [0x01#8]) ∧
      decodeBytes [0x73#8, 0x00#8, 0xB5#8] = .error .truncated ∧
      decodeTableWord 32 0x12628073 = some (.sfenceVma 5#5 6#5) := by decide

/-! Small states. -/

/-- `satp` of 95_test_vectors.md section 0: MODE 8, ASID 7, PPN 0x80000. -/
def satpA : Satp := { mode := 8, asid := 7#64, root := 0x80000#64 }

/-- A root table whose first entry has this low byte and is zero above it. -/
def rootMem (b : Byte) : Memory := [(0x80000000, b)]

/-- A hart at time 1 that has had `satpA` and this root table since launch. -/
def hartA (m : Memory) (log : List FenceRec) : Hart :=
  { Hart.launch Params.default m [] 0 with
    satp := satpA
    past := [{ satp := satpA, mem := m }]
    fenceLog := log }

/-- The machine with that hart alone. -/
def stateA (m : Memory) (log : List FenceRec) : State :=
  { State.launch Params.default m (fun _ => []) 0 [] with now := 1, hart := hartA m log }

/-- The implicit read of that root entry. -/
def obsA (b : Byte) (born : Nat) : Observation :=
  { asid := 7#64, level := 2, vbase := 0#64, slot := 0x80000000, pte := b.toNat,
    gpath := b.getLsbD 5, born := born }

/-- A valid leaf (V R W X A D), the same with G, a valid non-leaf, all of 95_test_vectors.md
section 0; and an invalid entry with a bit set. -/
def leafB : Byte := 0xCF#8
def globalB : Byte := 0xEF#8
def nonleafB : Byte := 0x01#8
def invalidB : Byte := 0x02#8

theorem wfA : (paramScheme Params.default).Wf := schemeOf_wf (by decide)

/-- The read of the root entry is usable as long as no fence subsumes it. -/
theorem usable_obsA {b : Byte} {log : List FenceRec} {born n : Nat}
    (hval : valIn Params.default (rootMem b) 0x80000000 born = b.toNat)
    (hg : b.getLsbD 5 = (paramScheme Params.default).gBit b.toNat)
    (hb : born ≤ 1) (hn : 1 ≤ n)
    (hu : unfenced (paramScheme Params.default) log (obsA b born) n = true) :
    Usable Params.default (hartA (rootMem b) log) (obsA b born) n := by
  refine usable_of_root (t := 1) hb hn ?_ hu
  refine ⟨{ satp := satpA, mem := rootMem b }, rfl, ?_, rfl, rfl, ?_, hg, ?_⟩
  · show (8 : Nat) ≠ 0
    decide
  · show 0x80000000 = slotOf (paramScheme Params.default)
      ((paramScheme Params.default).rootAddr satpA) 2 0#64
    decide
  · refine readOK_intro wfA ?_ hb ?_ ?_ ?_
    · show 2 < (paramScheme Params.default).levels
      decide
    · refine ⟨{ satp := satpA, mem := rootMem b }, ?_, hval⟩
      show (hartA (rootMem b) log).timeline[born]? = _
      interval_cases born <;> rfl
    · show 0#64 = spanBase (paramScheme Params.default) 2 0#64
      decide
    · show (paramScheme Params.default).validVA 0#64 = true
      decide

/-- The implicit read of the first entry of the level-1 table at 0, under the non-leaf root entry:
memory lists nothing there, so it is invalid. -/
def obsB (born : Nat) : Observation :=
  { asid := 7#64, level := 1, vbase := 0#64, slot := 0, pte := 0, gpath := false, born := born }

theorem fromParent_obsB (log : List FenceRec) :
    FromParent Params.default (hartA (rootMem nonleafB) log) (obsA nonleafB 1) (obsB 1) 1 :=
  ⟨by decide, by decide, by decide, by decide, by decide, by decide,
    readOK_intro wfA (by decide) (Nat.le_refl 1)
      ⟨{ satp := satpA, mem := rootMem nonleafB }, rfl, by decide⟩ (by decide) (by decide)⟩

/-- The outcome is a next state of which `p` holds. -/
def nextIs (o : Host.Outcome State Fault Refusal) (p : State → Bool) : Bool :=
  match o with
  | .next t => p t
  | .fault _ => false
  | .refused _ => false

theorem of_nextIs {o : Host.Outcome State Fault Refusal} {p : State → Bool}
    (h : nextIs o p = true) : ∃ t, o = .next t ∧ p t = true := by
  cases o with
  | next t => exact ⟨t, rfl, h⟩
  | fault f => cases h
  | refused r => cases h

/-- The operation gives a state of which `p` holds. -/
def okIs (o : Except Stop State) (p : State → Bool) : Bool :=
  match o with
  | .ok t => p t
  | .error _ => false

theorem of_okIs {o : Except Stop State} {p : State → Bool} (h : okIs o p = true) :
    ∃ t, o = .ok t ∧ p t = true := by
  cases o with
  | ok t => exact ⟨t, rfl, h⟩
  | error e => cases h

/-- The translation with this choice gives an address and a state of which `p` holds. -/
def translatesTo (c : Nat) (acc : Access) (va : Word) (s : State) (p : Nat → State → Bool) : Bool :=
  match translateWith c acc va s with
  | .ok (pa, t) => p pa t
  | .error _ => false

/-! The step tests: 95_test_vectors.md 2.8 T-STATE, and 2.7 T-PRIV rows 2, 4, 6, 7. -/

/-- The state T-STATE starts from, at `pc` 0x80100008, time 39, with the word 0x12B50073 in memory;
in M-mode, so that the fetch is not translated. -/
def stateT : State :=
  placeWord (setPc (setX (setX
    { stateA [] [{ time := 3, va := none, asid := none }] with now := 39 }
      10#5 0x402AB8#64) 11#5 0xFFFF000000010007#64) 0x80100008#64) 0x12B50073#32

theorem test_sfenceVma_step :
    nextIs (step stateT) (fun t =>
      decide (t.hart.fenceLog = [{ time := 3, va := none, asid := none },
        { time := 40, va := some 0x402AB8#64, asid := some 7#64 }]) &&
      decide (t.hart.instret = 1#64) && decide (t.hart.pc = 0x8010000C#64) &&
      decide (t.hart.x = stateT.hart.x) &&
      decide (t.hart.satp = satpA) && decide (t.hart.mem = stateT.hart.mem)) = true := by
  decide +kernel

/-- The state of a T-PRIV row. -/
def statePriv (m : Priv) (tvm bare : Bool) : State :=
  { State.reset with
    params := { Params.default with satpModeWritable := !bare }
    hart := { State.reset.hart with priv := m, mstatus := { tvm := tvm } } }

theorem test_sfenceVma_priv :
    exec (.sfenceVma 0#5 0#5) (statePriv .U true false) =
        .fault (.trap .illegalInstruction 0x12000073#64) ∧
      exec (.sfenceVma 0#5 0#5) (statePriv .S true false) =
        .fault (.trap .illegalInstruction 0x12000073#64) ∧
      exec (.sfenceVma 0#5 0#5) (statePriv .M false true) =
        .fault (.trap .illegalInstruction 0x12000073#64) ∧
      nextIs (exec (.sfenceVma 0#5 0#5) (statePriv .M true false))
        (fun t => decide (t.hart.pc = 0x80000004#64)) = true :=
  ⟨rfl, rfl, rfl, by decide +kernel⟩

/-- 95_test_vectors.md 2.4 T-ASID, three rows. -/
theorem test_asidOf :
    asidOf Params.default 0xFFFF000000010007#64 = 7#64 ∧
      asidOf { Params.default with asidlen := 9 } 0x3FF#64 = 0x1FF#64 ∧
      asidOf { Params.default with asidlen := 0 } 0xFFFF000000010007#64 = 0#64 := by decide

/-- 95_test_vectors.md 2.5 T-VA, the boundary rows. -/
theorem test_validVA :
    (sv64 3 8).validVA 0x3FFFFFFFFF#64 = true ∧ (sv64 3 8).validVA 0x4000000000#64 = false ∧
      (sv64 3 8).validVA 0xFFFFFFBFFFFFFFFF#64 = false ∧
      (sv64 3 8).validVA 0xFFFFFFC000000000#64 = true := by decide

/-- An observation of T-SUB. -/
def obsT (asid vbase : Word) (pte level : Nat) (g : Bool) : Observation :=
  { asid := asid, level := level, vbase := vbase, slot := 0, pte := pte, gpath := g, born := 0 }

/-- 95_test_vectors.md 2.6 T-SUB: oD under f2 and f7, oB under f3, oC under f3, oG under f8. -/
theorem test_subsumes :
    subsumes (sv64 3 8) ⟨1, none, some 7#64⟩ (obsT 7 0x80000000 0xEF 2 true) = false ∧
      subsumes (sv64 3 8) ⟨1, some 0x80100000#64, some 7#64⟩ (obsT 7 0x80000000 0xEF 2 true) =
        false ∧
      subsumes (sv64 3 8) ⟨1, some 0x402AB8#64, none⟩ (obsT 7 0x400000 0x01 1 false) = false ∧
      subsumes (sv64 3 8) ⟨1, some 0x402AB8#64, none⟩ (obsT 7 0x402000 0 0 false) = true ∧
      subsumes (sv64 3 8) ⟨1, some 0x7FF000#64, some 7#64⟩ (obsT 7 0x600000 0xC7 1 false) =
        true := by decide

/-! Witnesses: for each statement with hypotheses, a case that meets them. -/

theorem test_NonzeroRdIsReserved_hyps :
    opcodeOk 0x120000F3#32 = true ∧ funct3Ok 0x120000F3#32 = true ∧
      funct7Ok 0x120000F3#32 = true ∧ rdOk 0x120000F3#32 = false := by decide

theorem test_OperandsAreSelectedByTheField_hyps :
    (10#5 : Reg) ≠ 0#5 ∧ getX State.reset 10#5 = 0#64 := by decide

/-- Two values that agree in 16 bits; and a machine with no ASID bits. -/
theorem test_AsidOperandIgnoresHighBits_hyps :
    (11#5 : Reg) ≠ 0#5 ∧
      (trunc Params.default 0xFFFF000000010007#64).toNat % 2 ^ Params.default.asidlen =
        (trunc Params.default 7#64).toNat % 2 ^ Params.default.asidlen ∧
      ({ State.reset with params := { Params.default with asidlen := 0 } } : State).params.asidlen =
        0 := by decide

/-- In M-mode with TVM set, in S-mode with TVM clear, and on a Bare-only hart that does not trap. -/
theorem test_SfenceVmaCompletes_hyps :
    sfenceExecutes (statePriv .M true false) ∧ sfenceExecutes (statePriv .S false false) ∧
      sfenceExecutes { State.reset with
        params := { Params.default with satpModeWritable := false, bareOnlySfence := .nop } } := by
  unfold sfenceExecutes; decide

theorem test_SfenceVmaTrapsOtherwise_hyps :
    ¬ sfenceExecutes (statePriv .U false false) ∧ ¬ sfenceExecutes (statePriv .S true false) ∧
      ¬ sfenceExecutes (statePriv .M false true) := by
  unfold sfenceExecutes; decide

/-- The first invalid address; and an observation whose range, the first page, holds only valid
addresses. -/
theorem test_InvalidAddressHasNoEffect_hyps :
    ((10#5 : Reg) ≠ 0#5 ∧
      (paramScheme State.reset.params).validVA
        (getX (setX State.reset 10#5 0x4000000000#64) 10#5) = false ∧
      sfenceExecutes (setX State.reset 10#5 0x4000000000#64)) ∧
    ∀ v, inRange (paramScheme State.reset.params) (obsT 7 0 0xC7 0 false) v = true →
      (paramScheme State.reset.params).validVA v = true :=
  ⟨by unfold sfenceExecutes; decide,
    range_valid wfA (o := obsT 7 0 0xC7 0 false) (va := 0#64) (by decide) (by decide) (by decide)⟩

theorem test_OperandValuesRaiseNothing_hyps :
    (∃ t, exec (.sfenceVma 10#5 11#5) State.reset = .next t) ∧
      ∃ f, exec (.sfenceVma 10#5 11#5) (statePriv .U false false) = .fault f :=
  ⟨⟨_, rfl⟩, ⟨_, rfl⟩⟩

theorem test_SfenceVmaFrame_hyps :
    ∃ t, exec (.sfenceVma 10#5 11#5) State.reset = .next t := ⟨_, rfl⟩

theorem test_OnlyNamedRegistersAreRead_hyps :
    (12#5 : Reg) ≠ 10#5 ∧ (12#5 : Reg) ≠ 0#5 ∧
      (∃ t, exec (.sfenceVma 10#5 0#5) State.reset = .next t) ∧
      ∃ f, exec (.sfenceVma 10#5 0#5) (statePriv .U false false) = .fault f :=
  ⟨by decide, by decide, ⟨_, rfl⟩, ⟨_, rfl⟩⟩

/-- The two parameters, in a mode the privilege check lets through, and a legal hart without initial
observations. -/
theorem test_BareOnlyTrapsOrHasNoEffect_hyps :
    (statePriv .S false true).params.satpModeWritable = false ∧
      (statePriv .S false true).params.bareOnlySfence = .trap ∧
      privilegeForbids (statePriv .S false true) = false ∧
      (statePriv .S false true).legal = true ∧ (statePriv .S false true).hart.initialObs = [] ∧
      ({ Params.default with satpModeWritable := false, bareOnlySfence := .nop } : Params).bareOnlySfence
        = .nop := by decide

/-- A usable leaf of the present, in the state a full fence at time 1 leaves. -/
theorem test_FullFenceOrdersAndInvalidatesAll_hyps :
    sfenceExecutes (stateA (rootMem leafB) []) ∧ 0 < (stateA (rootMem leafB) []).now ∧
      Usable Params.default (hartA (rootMem leafB) [{ time := 1, va := none, asid := none }])
        (obsA leafB 1) 1 :=
  ⟨⟨.inl rfl, .inl rfl⟩, by decide, usable_obsA (by decide) (by decide) (by decide) (by decide)
    (by decide)⟩

/-- rs2 names x11, which holds 7: the read of ASID 7 of the present; a global one of the past and one
of another ASID. -/
theorem test_AsidFenceCoversOneAddressSpace_hyps :
    (11#5 : Reg) ≠ 0#5 ∧ sfenceExecutes (setX (stateA (rootMem leafB) []) 11#5 7#64) ∧
      Usable Params.default (hartA (rootMem leafB) [{ time := 1, va := none, asid := some 7#64 }])
        (obsA leafB 1) 1 ∧ (obsA leafB 1).gpath = false ∧
      (obsA leafB 1).asid = asidOf Params.default 0xFFFF000000010007#64 ∧
      Usable Params.default (hartA (rootMem globalB) []) (obsA globalB 0) 1 ∧
      (obsA globalB 0).gpath = true ∧
      Usable Params.default (hartA (rootMem leafB) []) (obsA leafB 0) 1 ∧
      (obsA leafB 0).asid ≠ asidOf Params.default 5#64 :=
  ⟨by decide, ⟨.inl rfl, .inl rfl⟩,
    usable_obsA (by decide) (by decide) (by decide) (by decide) (by decide), by decide, by decide,
    usable_obsA (by decide) (by decide) (by decide) (by decide) (by decide), by decide,
    usable_obsA (by decide) (by decide) (by decide) (by decide) (by decide), by decide⟩

/-- x10 holds the last address of the leaf's range, which is valid; a non-leaf of the past; and a leaf of
the past whose range ends just before the address 0x40000000. -/
theorem test_AddressFenceCoversOneMapping_hyps :
    (10#5 : Reg) ≠ 0#5 ∧ sfenceExecutes (setX (stateA (rootMem leafB) []) 10#5 0x3FFFFFFF#64) ∧
      (paramScheme Params.default).validVA
        (getX (setX (stateA (rootMem leafB) []) 10#5 0x3FFFFFFF#64) 10#5) = true ∧
      Usable Params.default
        (hartA (rootMem leafB) [{ time := 1, va := some 0x3FFFFFFF#64, asid := none }])
        (obsA leafB 1) 1 ∧
      terminal (paramScheme Params.default) (obsA leafB 1) = true ∧
      inRange (paramScheme Params.default) (obsA leafB 1) 0x3FFFFFFF#64 = true ∧
      Usable Params.default (hartA (rootMem nonleafB) []) (obsA nonleafB 0) 1 ∧
      obsClass (paramScheme Params.default) (obsA nonleafB 0) = .nonleaf ∧
      Usable Params.default (hartA (rootMem leafB) []) (obsA leafB 0) 1 ∧
      inRange (paramScheme Params.default) (obsA leafB 0) 0x40000000#64 = false :=
  ⟨by decide, ⟨.inl rfl, .inl rfl⟩, by decide,
    usable_obsA (by decide) (by decide) (by decide) (by decide) (by decide), by decide, by decide,
    usable_obsA (by decide) (by decide) (by decide) (by decide) (by decide), by decide,
    usable_obsA (by decide) (by decide) (by decide) (by decide) (by decide), by decide⟩

theorem test_AddressAsidFenceCoversOneMapping_hyps :
    (10#5 : Reg) ≠ 0#5 ∧ (11#5 : Reg) ≠ 0#5 ∧
      sfenceExecutes (setX (setX (stateA (rootMem leafB) []) 10#5 0#64) 11#5 7#64) ∧
      (paramScheme Params.default).validVA
        (getX (setX (stateA (rootMem leafB) []) 10#5 0#64) 10#5) = true ∧
      Usable Params.default
        (hartA (rootMem leafB) [{ time := 1, va := some 0#64, asid := some 7#64 }])
        (obsA leafB 1) 1 ∧
      terminal (paramScheme Params.default) (obsA leafB 1) = true ∧
      inRange (paramScheme Params.default) (obsA leafB 1) 0#64 = true ∧
      (obsA leafB 1).asid = asidOf Params.default 7#64 ∧ (obsA leafB 1).gpath = false ∧
      Usable Params.default (hartA (rootMem nonleafB) []) (obsA nonleafB 0) 1 ∧
      obsClass (paramScheme Params.default) (obsA nonleafB 0) = .nonleaf ∧
      Usable Params.default (hartA (rootMem globalB) []) (obsA globalB 0) 1 ∧
      (obsA globalB 0).gpath = true ∧
      Usable Params.default (hartA (rootMem leafB) []) (obsA leafB 0) 1 ∧
      (obsA leafB 0).asid ≠ asidOf Params.default 5#64 ∧
      inRange (paramScheme Params.default) (obsA leafB 0) 0x40000000#64 = false :=
  ⟨by decide, by decide, ⟨.inl rfl, .inl rfl⟩, by decide,
    usable_obsA (by decide) (by decide) (by decide) (by decide) (by decide), by decide, by decide,
    by decide, by decide,
    usable_obsA (by decide) (by decide) (by decide) (by decide) (by decide), by decide,
    usable_obsA (by decide) (by decide) (by decide) (by decide) (by decide), by decide,
    usable_obsA (by decide) (by decide) (by decide) (by decide) (by decide), by decide,
    by decide⟩

/-- A log with a full fence, one further step (an environment action), and an older read. -/
theorem test_FencedStaysFenced_hyps :
    ∃ (s t : State) (f : FenceRec) (g : Hart), f ∈ s.hart.fenceLog ∧
      subsumes (paramScheme s.params) f (obsA leafB 0) = true ∧ (obsA leafB 0).born < f.time ∧
      (s.harts.map (·.id)).Nodup ∧ core.run 1 s = .next t ∧ g ∈ t.harts ∧ g.id = s.hart.id ∧
      f.time ≤ 2 :=
  ⟨{ stateA (rootMem leafB) [{ time := 1, va := none, asid := none }] with
      agenda := [.env 0 .dataFence] }, _, { time := 1, va := none, asid := none }, _,
    by decide, by decide, by decide, by decide, rfl, List.mem_cons_self, rfl, by decide⟩

/-- The wider log holds a full fence, the hart's own none; a read is usable under the wider one. -/
theorem test_OverFencingOnlyRemoves_hyps :
    (∀ o n, unfenced (paramScheme Params.default) [{ time := 1, va := none, asid := none }] o n =
        true → unfenced (paramScheme Params.default) (hartA (rootMem leafB) []).fenceLog o n =
        true) ∧
      Usable Params.default (hartA (rootMem leafB) [{ time := 1, va := none, asid := none }])
        (obsA leafB 1) 1 :=
  ⟨fun _ _ _ => rfl, usable_obsA (by decide) (by decide) (by decide) (by decide) (by decide)⟩

/-- A path without a G bit, and one with. -/
theorem test_RecipeFencesAreSufficient_hyps :
    ((obsA leafB 0).gpath = true → false = true) ∧ ((obsA leafB 0).asid = 7#64 ∨ false = true) ∧
      ((obsA globalB 0).gpath = true → true = true) ∧
      ((obsA globalB 0).asid = 5#64 ∨ true = true) ∧
      terminal (sv64 3 8) (obsA leafB 0) = true ∧
      inRange (sv64 3 8) (obsA leafB 0) 0x402AB8#64 = true ∧
      terminal (sv64 3 8) (obsA globalB 0) = true := by decide

/-- The premises of the recycling statement on a machine with this root entry: x11 holds 7, and the hart
has had `satpA`, of ASID 7, ever since. -/
theorem test_RecycledAsidReadsTheNewTable_premises (b : Byte) :
    (11#5 : Reg) ≠ 0#5 ∧ sfenceExecutes (setX (stateA (rootMem b) []) 11#5 7#64) ∧
      0 < (setX (stateA (rootMem b) []) 11#5 7#64).now ∧
      (∃ t, exec (.sfenceVma 0#5 11#5) (setX (stateA (rootMem b) []) 11#5 7#64) = .next t ∧
        ∃ later, (hartA (rootMem b) [⟨1, none, some 7#64⟩]).fenceLog = t.hart.fenceLog ++ later) ∧
      ∀ k sn, 1 ≤ k → (hartA (rootMem b) [⟨1, none, some 7#64⟩]).timeline[k]? = some sn →
        sn.satp.asid = 7#64 → sn.satp = satpA :=
  ⟨by decide, ⟨.inl rfl, .inl rfl⟩, Nat.one_pos, ⟨_, rfl, [], rfl⟩, fun k sn _ hsn _ => by
    have hs : sn ∈ (hartA (rootMem b) [⟨1, none, some 7#64⟩]).timeline := List.mem_of_getElem? hsn
    rcases List.mem_cons.1 hs with rfl | hs
    · rfl
    · rw [List.mem_singleton.1 hs]; rfl⟩

/-- Read after the fence: a root entry, and an entry of the table a non-leaf root entry points to. -/
theorem test_RecycledAsidReadsTheNewTable_hyps :
    asidOf Params.default (getX (setX (stateA (rootMem leafB) []) 11#5 7#64) 11#5) = 7#64 ∧
      Usable Params.default (hartA (rootMem leafB) [⟨1, none, some 7#64⟩]) (obsA leafB 1) 1 ∧
      (obsA leafB 1).asid = 7#64 ∧ (obsA leafB 1).gpath = false ∧
      (obsA leafB 1).level + 1 = (paramScheme Params.default).levels ∧
      Usable Params.default (hartA (rootMem nonleafB) [⟨1, none, some 7#64⟩]) (obsB 1) 1 ∧
      (obsB 1).asid = 7#64 ∧ (obsB 1).gpath = false ∧
      (obsB 1).level + 1 ≠ (paramScheme Params.default).levels :=
  ⟨by decide, usable_obsA (by decide) (by decide) (by decide) (by decide) (by decide), by decide,
    by decide, by decide,
    usable_of_parent (t := 1) (Nat.le_refl 1) (Nat.le_refl 1)
      (usable_obsA (b := nonleafB) (born := 1) (by decide) (by decide) (by decide) (by decide)
        (by decide)) (fromParent_obsB _) (by decide),
    by decide, by decide, by decide⟩

/-- The walk made at time 0, in a history whose only fence names another address space; and a read of
the present under a full fence of the present. -/
theorem test_AnyTranslationSinceTheFenceIsUsable_hyps :
    (paramScheme Params.default).validVA 0x402AB8#64 = true ∧
      (hartA (rootMem leafB) [⟨1, none, some 5#64⟩]).timeline[0]? =
        some { satp := satpA, mem := rootMem leafB } ∧ satpA.mode ≠ 0 ∧
      newestWalk Params.default ((hartA (rootMem leafB) [⟨1, none, some 5#64⟩]).rewind 0)
        0x402AB8#64 0 = some (obsA leafB 0) ∧
      unfenced (paramScheme Params.default) [⟨1, none, some 5#64⟩] (obsA leafB 0) 1 = true ∧
      Usable Params.default (hartA (rootMem leafB) [⟨1, none, none⟩]) (obsA leafB 1) 1 ∧
      subsumes (paramScheme Params.default) ⟨1, none, none⟩ (obsA leafB 1) = true :=
  ⟨by decide, rfl, by decide, by decide, by decide,
    usable_obsA (by decide) (by decide) (by decide) (by decide) (by decide), by decide⟩

/-- The list is not empty: it holds the reads of the past and of the present. -/
theorem test_CandidatesAreTheAdmitted_hyps :
    (paramScheme Params.default).Wf ∧
      candidates Params.default (hartA (rootMem leafB) []) 0x402AB8#64 1 =
        [obsA leafB 0, obsA leafB 1] := ⟨wfA, by decide +kernel⟩

theorem test_NewestWalkIsACandidate_hyps :
    (stateA (rootMem leafB) []).timed = true ∧ (stateA (rootMem leafB) []).hart.satp.mode ≠ 0 ∧
      (paramScheme Params.default).validVA 0x402AB8#64 = true ∧
      newestWalk Params.default (stateA (rootMem leafB) []).hart 0x402AB8#64 1 =
        some (obsA leafB 1) := by decide

theorem test_ImplicitReadsAreReachable_hyps :
    (hartA (rootMem leafB) []).initialObs = [] ∧
      Usable Params.default (hartA (rootMem leafB) []) (obsA leafB 0) 1 ∧
      unfenced (paramScheme Params.default) (hartA (rootMem leafB) []).fenceLog (obsA leafB 1) 1 =
        true ∧
      (Usable Params.default (hartA (rootMem nonleafB) []) (obsA nonleafB 1) 1 ∧
        FromParent Params.default (hartA (rootMem nonleafB) []) (obsA nonleafB 1) (obsB 1) 1) :=
  ⟨rfl, usable_obsA (by decide) (by decide) (by decide) (by decide) (by decide), by decide,
    usable_obsA (by decide) (by decide) (by decide) (by decide) (by decide), fromParent_obsB []⟩

/-- The store is one that overwrites the entry. -/
theorem test_AccessesEndNoTranslation_hyps :
    (stateA (rootMem leafB) []).timed = true ∧
      Usable Params.default (stateA (rootMem leafB) []).hart (obsA leafB 1) 1 ∧
      okIs (envLoad 0x80000000#64 8 (tick (stateA (rootMem leafB) []))) (fun _ => true) = true ∧
      okIs (envStore 0x80000000#64 8 0 (tick (stateA (rootMem leafB) []))) (fun _ => true) = true :=
  ⟨by decide, usable_obsA (by decide) (by decide) (by decide) (by decide) (by decide),
    by decide +kernel, by decide +kernel⟩

/-- The hart in S-mode, where accesses are translated. -/
def stateS (m : Memory) : State :=
  { stateA m [] with hart := { hartA m [] with priv := .S } }

/-- The hart in S-mode whose root entry was invalid until now and is a leaf now. -/
def stateNewLeaf : State :=
  { stateA (rootMem leafB) [] with
    hart := { hartA (rootMem leafB) [] with
      priv := .S, past := [{ satp := satpA, mem := rootMem invalidB }] } }

/-- The invalid entry of time 0 is usable though memory now holds a valid one; and a fence of a hart
that subsumes such an entry. -/
theorem test_ACachedInvalidPteMayFault_hyps :
    Usable Params.default stateNewLeaf.hart (obsA invalidB 0) 1 ∧
      (paramScheme Params.default).vBit (obsA invalidB 0).pte = false ∧
      (paramScheme Params.default).vBit
        (valIn Params.default stateNewLeaf.hart.mem 0x80000000 1) = true ∧
      inRange (paramScheme Params.default) (obsA invalidB 0) 0x402AB8#64 = true ∧
      (obsA invalidB 0).asid = stateNewLeaf.hart.satp.asid ∧
      translationActive stateNewLeaf = true ∧ stateNewLeaf.params.dataEndian = .little ∧
      (paramScheme Params.default).validVA 0x402AB8#64 = true ∧
      (obsA invalidB 0).born < 1 ∧
      subsumes (paramScheme Params.default) ⟨1, some 0x402AB8#64, some 7#64⟩ (obsA invalidB 0) =
        true := by
  refine ⟨usable_of_root (t := 0) (Nat.le_refl 0) (Nat.zero_le 1) ?_ (by decide), by decide,
    by decide, by decide, by decide, by decide, by decide, by decide, by decide, by decide⟩
  exact ⟨{ satp := satpA, mem := rootMem invalidB }, rfl, by decide, by decide, by decide,
    by decide, by decide, readOK_intro wfA (by decide) (Nat.le_refl 0)
      ⟨{ satp := satpA, mem := rootMem invalidB }, rfl, by decide⟩ (by decide) (by decide)⟩

/-- With candidates; and with none, in a state no run reaches, whose only past is Bare and which has no
time after it. -/
theorem test_TheChoiceIsFreeAmongCandidates_hyps :
    translationActive (stateS (rootMem leafB)) = true ∧
      (stateS (rootMem leafB)).params.dataEndian = .little ∧
      (paramScheme Params.default).validVA 0x402AB8#64 = true ∧
      obsA leafB 0 ∈ candidatesNow (stateS (rootMem leafB)) 0x402AB8#64 ∧
      candidatesNow { stateS (rootMem leafB) with
        now := 0
        hart := { (stateS (rootMem leafB)).hart with
          past := [{ satp := { satpA with mode := 0 }, mem := [] }] } } 0#64 = [] := by
  decide +kernel

/-- 20_memory.md R75: a walk that meets a valid entry with neither R nor X set at the last level ends
there, in an entry that lets no access through. -/
theorem test_walkAlwaysEnds :
    (newestWalk Params.default (hartA [(0, nonleafB), (0x80000000, nonleafB)] []) 0#64 1).map
        (fun o => (o.level, standardCheck o.pte .load .S true true)) = some (0, false) := by decide

/-- A translation that is made and one that is not, and an address that is not valid. -/
theorem test_ATranslationIsAnAdmittedOne_hyps :
    (paramScheme Params.default).Wf ∧
      translatesTo 0 .load 0x402AB8#64 (stateS (rootMem leafB)) (fun pa _ => decide (pa = 0x402AB8))
        = true ∧
      translationActive (stateS (rootMem leafB)) = true ∧
      translatesTo 0 .load 0x402AB8#64 (stateA (rootMem leafB) []) (fun pa _ =>
        decide (pa = 0x402AB8)) = true ∧
      translationActive (stateA (rootMem leafB) []) = false ∧
      (stateS (rootMem leafB)).params.dataEndian = .little ∧
      (paramScheme Params.default).validVA 0x4000000000#64 = false :=
  ⟨wfA, by decide +kernel, by decide, by decide +kernel, by decide, by decide, by decide⟩

/-- A translation without implicit writes; and one that sets the A bit of a leaf that has it clear
(V R W X, 0x0F), in a hart whose implicit writes update PTEs. -/
theorem test_ImplicitWritesAreTheParameters_hyps :
    (stateS (rootMem leafB)).memWf = true ∧
      (stateS (rootMem leafB)).params.implicitWrites = .absent ∧
      translatesTo 0 .load 0#64 (stateS (rootMem leafB)) (fun _ _ => true) = true ∧
      (stateS (rootMem 0x0F#8)).memWf = true ∧
      translatesTo 0 .load 0#64
        { stateS (rootMem 0x0F#8) with
          params := { Params.default with implicitWrites := .updatePte } }
        (fun _ t => decide (t.hart.mem.read 0x80000000 = 0x4F#8)) = true := by decide +kernel

/-- A write of a new ASID, after which a read of the old one stays usable and a candidate of the new
one exists; writes to Bare and from it; a change between two non-Bare modes; and the two cases in which
`satp` may not be written. -/
theorem test_SatpWriteTakesEffectAtOnce_hyps :
    okIs (envWriteSatp { satpA with asid := 5#64 } (tick (stateS (rootMem leafB)))) (fun t =>
        decide (candidatesNow t 0#64 ≠ [])) = true ∧
      (stateS (rootMem leafB)).params.activeRule = .standard ∧
      (stateS (rootMem leafB)).timed = true ∧
      Usable Params.default (stateS (rootMem leafB)).hart (obsA leafB 1) 1 ∧
      ((stateS (rootMem leafB)).hart.priv = .S ∧ tvmBit (stateS (rootMem leafB)) = false) ∧
      (legalSatp Params.default { satpA with asid := 5#64 }).mode =
        (paramScheme Params.default).modeNum ∧
      (stateS (rootMem leafB)).hart.satp.mode = (paramScheme Params.default).modeNum ∧
      (legalSatp Params.default { satpA with mode := 0 }).mode = 0 ∧
      State.reset.hart.satp.mode = 0 ∧
      (stateS (rootMem leafB)).hart.satp.mode ≠ 0 ∧
      (legalSatp Params.default { satpA with mode := 9 }).mode ≠ 0 ∧
      (legalSatp Params.default { satpA with mode := 9 }).mode ≠
        (stateS (rootMem leafB)).hart.satp.mode ∧
      (statePriv .U false false).hart.priv = .U ∧
      ((statePriv .S true false).hart.priv = .S ∧ tvmBit (statePriv .S true false) = true) :=
  ⟨by decide +kernel, by decide, by decide,
    usable_obsA (log := []) (by decide) (by decide) (by decide) (by decide) (by decide),
    by decide, by decide, by decide, by decide, by decide, by decide, by decide, by decide,
    by decide, by decide⟩

/-- Records whose every field is at its greatest value fit. -/
theorem test_SatpWordRoundTrip_hyps :
    (0xFFFFFFFF#64).toNat < 2 ^ 32 ∧ satpOfWord .rv64 0x8000700000080000#64 = satpA ∧
      satpWord .rv64 { mode := 15, asid := 0xFFFF#64, root := 0xFFFFFFFFFFF#64 } =
        0xFFFFFFFFFFFFFFFF#64 ∧
      satpWord .rv32 { mode := 1, asid := 0x1FF#64, root := 0x3FFFFF#64 } = 0xFFFFFFFF#64 := by
  decide

/-- Two harts; the second is named by the turn, and runs the word at its own `pc`. -/
def stateTwo (agenda : List Turn) : State :=
  let s := placeWord (State.launch Params.default [] (fun _ => []) 0 []) 0x12000073#32
  { s with others := [{ s.hart with id := 1 }], agenda := agenda }

theorem test_AnInstructionActsOnItsHartOnly_hyps :
    (∃ t, step (stateTwo []) = .next t) ∧ (∃ t, step (stateTwo [.instr 1]) = .next t) ∧
      0 < (stateTwo []).hart.timeline.length :=
  ⟨(of_nextIs (p := fun _ => true) (by decide +kernel)).imp fun _ h => h.1,
    (of_nextIs (p := fun _ => true) (by decide +kernel)).imp fun _ h => h.1, by decide⟩

/-- An instruction that grows the log, and an action that does not. -/
theorem test_OnlyAFenceGrowsTheLog_hyps :
    (∃ t, step (stateTwo []) = .next t ∧ decide (t.hart.fenceLog.length = 1) = true) ∧
      ∃ t, step (stateTwo [.env 1 .dataFence]) = .next t ∧
        decide (t.hart.fenceLog.length = 0) = true :=
  ⟨of_nextIs (by decide +kernel), of_nextIs (by decide +kernel)⟩

/-- Hart 0 has stored 1 and then 2 to one byte. -/
def stateTwoStores : State := memWrite (memWrite (stateTwo []) 0x2010 1 1) 0x2010 1 2

/-- Hart 1 sees these stores in flight, in this order, and then does `act`; hart 0 moves next. -/
def seenByOther (ks : List Nat) (act : State → State) (s : State) : Except Stop State :=
  (switchTo 1 s).bind fun s1 =>
    (ks.foldl (fun (e : Except Stop State) k => e.bind (envObserve k)) (.ok s1)).bind fun s2 =>
      switchTo 0 (act s2)

/-- What hart 1 sees in the byte after hart 0's data fence. -/
def afterFence (e : Except Stop State) (v : Byte) : Bool :=
  okIs e fun t => decide ((envDataFence t).others.map (fun g => g.mem.read 0x2010) = [v])

/-- 20_memory.md R70: after the fence the last store is what the other hart sees, whichever store it saw
before and in whatever order; its own store, made after it saw the newest, stays (10_state.md R34). -/
theorem test_dataFence_afterAnyOrder :
    afterFence (seenByOther [] id stateTwoStores) 2#8 = true ∧
      afterFence (seenByOther [0] id stateTwoStores) 2#8 = true ∧
      afterFence (seenByOther [1] id stateTwoStores) 2#8 = true ∧
      afterFence (seenByOther [1, 0] id stateTwoStores) 2#8 = true ∧
      afterFence (seenByOther [0, 1] (fun s => memWrite s 0x2010 1 5) stateTwoStores) 5#8 = true := by
  decide +kernel

/-- Stores in flight to the other hart, and one that it sees. -/
theorem test_DataFencePublishesStores_hyps :
    (stateTwo []).memWf = true ∧ (stateTwo []).others.length = 1 ∧
      stateTwoStores.inFlight.length = 2 ∧
      newestByte 0 1 0x2010 stateTwoStores.inFlight = some 2#8 ∧
      okIs ((switchTo 1 stateTwoStores).bind (envObserve 0)) (fun t =>
        decide (t.hart.mem.read 0x2010 = 1#8) &&
          (t.inFlight.head?.any fun q => q.covers 0x2010 && !q.covers 0x2011)) = true := by
  decide +kernel

theorem test_AnyStoreInFlightMayBeSeen_hyps :
    okIs (switchTo 1 stateTwoStores) (fun s => s.memWf &&
        decide ((s.inFlight[1]?).map (fun q => q.dst) = some s.hart.id) &&
        decide (s.inFlight[2]? = none)) = true := by decide +kernel

/-- A take with one entry pending and with none; a send to a hart that is there, and to one that is not;
and a step of each kind. -/
theorem test_IpiIsTakenAfterItWasSent_hyps :
    okIs (envTakeIpi 0x80000100#64 .S { stateTwo [] with ipis := [{ src := 1, dst := 0 }] })
        (fun _ => true) = true ∧
      (∀ q ∈ (stateTwo []).ipis, q.dst ≠ (stateTwo []).hart.id) ∧
      1 ∈ (stateTwo []).harts.map (·.id) ∧ 2 ∉ (stateTwo []).harts.map (·.id) ∧
      nextIs (step (stateTwo [.env 0 (.sendIpi 1)])) (fun t => decide (t.ipis = [⟨0, 1⟩])) = true ∧
      nextIs (step { stateTwo [.env 1 (.takeIpi 0x100#64 .S)] with ipis := [⟨1, 0⟩, ⟨0, 1⟩, ⟨0, 1⟩] })
        (fun t => decide (t.ipis = [⟨1, 0⟩, ⟨0, 1⟩])) = true ∧
      nextIs (step { stateTwo [] with ipis := [⟨0, 1⟩] }) (fun t => decide (t.ipis = [⟨0, 1⟩])) =
        true := by decide +kernel

theorem test_MemoryReadAfterWrite_hyps : (rootMem leafB).wf = true := by decide

/-- A store, untranslated, to the address 0x1000. -/
theorem test_StoreFrame_hyps :
    (stateA (rootMem leafB) []).memWf = true ∧
      okIs (envStore 0x1000#64 8 255 (stateA (rootMem leafB) []))
        (fun t => decide (t.hart.mem.read 0x1000 = 255#8)) = true ∧
      (stateA (rootMem leafB) []).params.dataEndian = .little ∧
      inPAddr Params.default 0x1000 8 = true ∧
      translate .store 0x1000#64 (stateA (rootMem leafB) []) =
        .ok (0x1000, stateA (rootMem leafB) []) :=
  ⟨by decide, by decide +kernel, by decide, by decide, rfl⟩

/-- A load of the root entry, untranslated. -/
theorem test_ALoadReadsTheTranslatedAddress_hyps :
    okIs (envLoad 0x80000000#64 8 (stateA (rootMem leafB) []))
        (fun t => decide (t.hart.lastLoad = some 0xCF)) = true ∧
      (stateA (rootMem leafB) []).params.dataEndian = .little ∧
      inPAddr Params.default 0x80000000 8 = true ∧
      translate .load 0x80000000#64 (stateA (rootMem leafB) []) =
        .ok (0x80000000, stateA (rootMem leafB) []) :=
  ⟨by decide +kernel, by decide, by decide, rfl⟩

/-- A write of TVM in M-mode and one in S-mode, and a step that performs the first. -/
theorem test_TvmIsWrittenInMachineModeOnly_hyps :
    (statePriv .M false false).hart.priv = .M ∧ (statePriv .S false false).hart.priv ≠ .M ∧
      nextIs (step { statePriv .M false false with agenda := [.env 0 (.setTvm true)] })
        (fun t => t.hart.mstatus.tvm) = true := by decide +kernel

/-- An instruction of each kind of turn, and the two kinds of environment action. -/
theorem test_EveryInstructionIsCounted_hyps :
    nextIs (step (stateTwo [])) (fun t => decide (t.hart.instret = 1#64)) = true ∧
      nextIs (step (stateTwo [.instr 1])) (fun t => decide (t.hart.instret = 1#64)) = true ∧
      nextIs (step (stateTwo [.env 1 .retire])) (fun t => decide (t.hart.instret = 1#64)) = true ∧
      nextIs (step (stateTwo [.env 1 .dataFence])) (fun t => decide (t.hart.instret = 0#64)) =
        true := by decide +kernel

/-- The fetch after a turn gives a word that decodes. -/
theorem test_AStepRunsTheDecodedInstruction_hyps :
    ∃ s1 s2, nextTurn (stateTwo []) = .ok (none, s1) ∧
      fetch s1 = .ok (0x12000073#32, s2) ∧
      decodeBytes (bytesOfWord 0x12000073#32) = .ok (.sfenceVma 0#5 0#5, []) := by
  refine ⟨tick (stateTwo []), tick (stateTwo []), rfl, ?_, by decide⟩
  have h : (match fetch (tick (stateTwo [])) with
    | .ok (w, s2) => decide (w = 0x12000073#32) && decide (s2 = tick (stateTwo []))
    | .error _ => false) = true := by decide +kernel
  split at h
  · next e => simp only [Bool.and_eq_true, decide_eq_true_eq] at h; rw [e, h.1, h.2]
  · cases h

theorem test_AStepRunsTheBytesAtPc_hyps :
    (stateTwo []).agenda = [] ∧ translationActive (stateTwo []) = false ∧
      (getPc (stateTwo [])).toNat % 4 = 0 ∧
      inPAddr (stateTwo []).params (getPc (stateTwo [])).toNat 4 = true ∧
      storedTo (stateTwo []) (getPc (stateTwo [])).toNat 4 = false ∧
      ∀ k < 4, some ((stateTwo []).hart.mem.read ((getPc (stateTwo [])).toNat + k)) =
        (encodeBytes (.sfenceVma 0#5 0#5))[k]? := by decide +kernel

theorem test_AStepPerformsTheEnvironmentAction_hyps :
    (stateTwo [.env 1 .dataFence]).agenda = [.env 1 .dataFence] ∧
      ∃ s1, switchTo 1 { stateTwo [.env 1 .dataFence] with agenda := [] } = .ok s1 :=
  ⟨rfl, (of_okIs (p := fun _ => true) (by decide)).imp fun _ h => h.1⟩

theorem test_LaunchState_hyps :
    State.reset.hart ∈ (State.launch Params.default [] (fun _ => []) 0 [1]).harts := List.mem_cons_self

/-- One step of a machine that meets every invariant: of an instruction, and of a store. -/
theorem test_invariants_hyps :
    (stateTwo []).memWf = true ∧ (stateTwo []).timed = true ∧ (stateTwo []).legal = true ∧
      (∃ t, step (stateTwo []) = .next t) ∧
      ∃ t, step (stateTwo [.env 1 (.store 0x1000#64 8 255)]) = .next t ∧
        decide (t.hart.mem.read 0x1000 = 255#8) = true :=
  ⟨by decide, by decide, by decide,
    (of_nextIs (p := fun _ => true) (by decide +kernel)).imp fun _ h => h.1,
    of_nextIs (by decide +kernel)⟩

/-- A name of each kind, and a word that is none. -/
theorem test_AssemblerSpelling_hyps :
    IsNameOf "x31" 31#5 ∧ IsNameOf "zero" 0#5 ∧ IsNameOf "s0" 8#5 ∧ IsNameOf "fp" 8#5 ∧
      ∀ r, ¬ IsNameOf "x32" r := by unfold IsNameOf; decide

end Sys2Proof.Tests
end

