-- ==== Sys2Proof/Proofs/Scope.lean ====
section
/-! PROOF. The operand forms of SFENCE.VMA are selected by the register field (00_scope.md R9). -/

namespace Sys2Proof.Machine

@[simp] theorem vaSel_zero (s : State) : vaSel 0#5 s = none := rfl

theorem vaSel_of_ne_zero {r : Reg} (hr : r ≠ 0#5) (s : State) : vaSel r s = some (getX s r) :=
  if_neg hr

@[simp] theorem vaSel_eq_none_iff (r : Reg) (s : State) : vaSel r s = none ↔ r = 0#5 := by
  by_cases hr : r = 0#5
  · simp [hr]
  · simp [vaSel_of_ne_zero hr, hr]

@[simp] theorem asidSel_zero (s : State) : asidSel 0#5 s = none := rfl

theorem asidSel_of_ne_zero {r : Reg} (hr : r ≠ 0#5) (s : State) :
    asidSel r s = some (asidOf s.params (getX s r)) :=
  if_neg hr

@[simp] theorem asidSel_eq_none_iff (r : Reg) (s : State) : asidSel r s = none ↔ r = 0#5 := by
  by_cases hr : r = 0#5
  · simp [hr]
  · simp [asidSel_of_ne_zero hr, hr]

@[simp] theorem asidOf_zero (p : Params) : asidOf p 0#64 = 0#64 := by
  simp [asidOf, lowBits]

/-- Settles O7: each operand's two equations, one per kind of field; a register that holds zero gives
the operand zero because the ASID slice of zero is zero. -/
theorem operandsAreSelectedByTheField : Obligations.OperandsAreSelectedByTheField := by
  intro s r
  refine ⟨vaSel_eq_none_iff r s, asidSel_eq_none_iff r s, (vaSel_of_ne_zero · s), ?_⟩
  intro hr hzero
  have hva : vaSel r s = some 0#64 := by rw [vaSel_of_ne_zero hr, hzero]
  have hasid : asidSel r s = some 0#64 := by rw [asidSel_of_ne_zero hr, hzero, asidOf_zero]
  exact ⟨hva, hasid⟩

end Sys2Proof.Machine
end

/-! PROOF. What a hart may use of its past: the walks it could have made, the invalid entries it
may hold, and what its own accesses and the other harts leave of it (20_memory.md R57, R61, R62,
R78). -/

namespace Sys2Proof.Machine

/-! Aligned spans around one address. -/

section
variable {sc : Scheme}

theorem spanBase_div (wf : sc.Wf) (l : Nat) (va : Word) :
    (spanBase sc l va).toNat / sc.span l = va.toNat / sc.span l := by
  rw [spanBase_toNat, ← Nat.div_mul_self_eq_mod_sub_self,
    Nat.mul_div_cancel _ (wf.span_pos l)]

@[simp] theorem spanBase_spanBase (sc : Scheme) (l : Nat) (va : Word) :
    spanBase sc l (spanBase sc l va) = spanBase sc l va := by
  apply BitVec.eq_of_toNat_eq
  rw [spanBase_toNat, spanBase_aligned, Nat.sub_zero]

/-- The span of a valid address starts at a valid address. -/
theorem validVA_spanBase (wf : sc.Wf) {l : Nat} (hl : l < sc.levels) (va : Word) :
    sc.validVA (spanBase sc l va) = sc.validVA va :=
  wf.valid_span l hl _ _ (spanBase_div wf l va)

/-- Around one address, the span of a level lies within the span of the level above: the offset in
the large span is the offset in the small one and a number of whole small spans. -/
theorem rangeWithin_spanBase (wf : sc.Wf) {o q : Observation} {va : Word}
    (hl : q.level = o.level + 1) (ho : o.vbase = spanBase sc o.level va)
    (hq : q.vbase = spanBase sc q.level va) : rangeWithin sc o q = true := by
  obtain ⟨k, hk⟩ := wf.span_dvd o.level
  have hk0 : 0 < k := Nat.pos_of_mul_pos_left (hk ▸ wf.span_pos (o.level + 1))
  have hoffset := Nat.mod_mul (a := sc.span o.level) (b := k) (x := va.toNat)
  have hwhole : sc.span o.level * (va.toNat / sc.span o.level % k + 1) ≤ sc.span o.level * k :=
    Nat.mul_le_mul_left _ (Nat.mod_lt _ hk0)
  have hle := Nat.mod_le va.toNat (sc.span o.level * k)
  rw [Nat.mul_succ] at hwhole
  simp only [rangeWithin, Bool.and_eq_true, decide_eq_true_eq, ho, hq, spanBase_toNat, hl, hk]
  omega

/-- A range that contains the address lies within its parent's, which contains it too. -/
theorem inRange_of_rangeWithin {o q : Observation} {va : Word} (hw : rangeWithin sc o q = true)
    (hr : inRange sc o va = true) : inRange sc q va = true := by
  simp only [rangeWithin, inRange, Bool.and_eq_true, decide_eq_true_eq] at hw hr ⊢
  omega

end

/-! What a usable observation and the reads it comes from say. -/

/-- A read from a root table is of the root level. -/
theorem FromRoot.level_eq {p : Params} {h : Hart} {o : Observation} {t : Nat}
    (r : FromRoot p h o t) : o.level + 1 = (paramScheme p).levels := by
  obtain ⟨-, -, -, hlevel, -⟩ := r
  exact hlevel

/-- A read from a root table is as `ReadOK` asks. -/
theorem FromRoot.readOK {p : Params} {h : Hart} {o : Observation} {t : Nat}
    (r : FromRoot p h o t) : ReadOK p h o t := by
  obtain ⟨-, -, -, -, -, -, -, hread⟩ := r
  exact hread

/-- A read from a table that an entry points to is as `ReadOK` asks. -/
theorem FromParent.readOK {p : Params} {h : Hart} {q o : Observation} {t : Nat}
    (r : FromParent p h q o t) : ReadOK p h o t := by
  obtain ⟨-, -, -, -, -, -, hread⟩ := r
  exact hread

/-- A read made is kept: it stays usable while no fence subsumes it. -/
theorem UsableAt.later {p : Params} {h : Hart} {d n m : Nat} {o : Observation}
    (u : UsableAt p h d o n) (hm : n ≤ m)
    (hu : Machine.unfenced (paramScheme p) h.fenceLog o m = true) : UsableAt p h d o m := by
  cases d <;>
  · obtain ⟨t, hb, ht, hread, -⟩ := u
    exact ⟨t, hb, ht.trans hm, hread, hu⟩

theorem Usable.later {p : Params} {h : Hart} {n m : Nat} {o : Observation} (u : Usable p h o n)
    (hm : n ≤ m) (hu : unfenced (paramScheme p) h.fenceLog o m = true) : Usable p h o m :=
  ⟨u.1, u.2.later hm hu⟩

/-- No fence that subsumes a usable observation is younger than the value read. -/
theorem Usable.fence_le_born {p : Params} {h : Hart} {o : Observation} {n : Nat} {f : FenceRec}
    (u : Usable p h o n) (hf : f ∈ h.fenceLog) (hn : f.time ≤ n)
    (hs : subsumes (paramScheme p) f o = true) : f.time ≤ o.born := by
  by_contra hlt
  have hnot := unfenced_iff.mp u.2.unfenced f hf (Nat.lt_of_not_le hlt) hn
  simp [hs] at hnot

/-- A read of the present is unfenced, for the fences before it leave it alone. -/
theorem unfenced_born (sc : Scheme) (log : List FenceRec) (o : Observation) :
    unfenced sc log o o.born = true :=
  unfenced_iff.mpr fun _ _ h1 h2 => absurd h2 (by omega)

/-! The computed list holds what the rules admit (20_memory.md section 7). -/

section
variable {p : Params} {h : Hart} {va : Word} {o : Observation} (wf : (paramScheme p).Wf)
include wf

/-- `readsOf` lists the reads of one slot that `ReadOK` admits and whose range contains the
address. -/
theorem mem_readsOf_iff {l table t : Nat} {asid : Word} {g : Bool}
    (hl : l < (paramScheme p).levels) :
    o ∈ readsOf p h va l table asid g t ↔
      o.level = l ∧ o.asid = asid ∧ o.slot = slotOf (paramScheme p) table o.level o.vbase ∧
        o.gpath = (g || (paramScheme p).gBit o.pte) ∧ ReadOK p h o t ∧
        inRange (paramScheme p) o va = true := by
  rw [mem_readsOf]
  constructor
  · rintro ⟨hv, hb, hheld, hasid, rfl, hvb, hslot, hg⟩
    have halign : o.vbase.toNat % (paramScheme p).span o.level = 0 := by
      rw [hvb]; exact spanBase_aligned _ _ _
    exact ⟨rfl, hasid, hslot, hg, ⟨hb, hheld, halign, range_valid wf hl hvb hv⟩,
      inRange_spanBase (wf.span_pos _) hvb⟩
  · rintro ⟨rfl, hasid, hslot, hg, ⟨hb, hheld, halign, hvalid⟩, hr⟩
    refine ⟨?_, hb, hheld, hasid, rfl, eq_spanBase halign hr, hslot, hg⟩
    rw [validVA_spanBase wf hl, hvalid va hr]

theorem mem_rootReads_iff {t : Nat} :
    o ∈ rootReads p h va t ↔ FromRoot p h o t ∧ inRange (paramScheme p) o va = true := by
  have hpos := wf.levels_pos
  unfold rootReads FromRoot
  cases hsn : h.timeline[t]? with
  | none => simp
  | some sn =>
    by_cases hmode : sn.satp.mode = 0
    · simp [hmode]
    · have hlevel :
          o.level = (paramScheme p).levels - 1 ↔ o.level + 1 = (paramScheme p).levels := by
        omega
      simp [hmode, mem_readsOf_iff wf, hpos, hlevel, and_assoc]

theorem mem_stepReads_iff {l t : Nat} {q : Observation} (hl : l < (paramScheme p).levels) :
    o ∈ stepReads p h va l q t ↔
      o.level = l ∧ FromParent p h q o t ∧ inRange (paramScheme p) o va = true := by
  unfold stepReads FromParent
  by_cases hq : obsClass (paramScheme p) q = .nonleaf ∧ q.level = l + 1
  · simp only [if_pos hq, List.mem_filter, mem_readsOf_iff wf hl]
    constructor
    · rintro ⟨⟨rfl, hasid, hslot, hg, hread, hr⟩, hwithin⟩
      exact ⟨rfl, ⟨hq.1, hq.2, hwithin, hasid, hslot, hg, hread⟩, hr⟩
    · rintro ⟨rfl, ⟨-, -, hwithin, hasid, hslot, hg, hread⟩, hr⟩
      exact ⟨⟨rfl, hasid, hslot, hg, hread, hr⟩, hwithin⟩
  · simp only [if_neg hq, List.not_mem_nil, false_iff]
    rintro ⟨rfl, ⟨hclass, hlevel, -⟩, -⟩
    exact hq ⟨hclass, hlevel⟩

/-- `usableList` lists the usable observations of one level whose range contains the address. -/
theorem mem_usableList_iff {d n : Nat} (hd : d < (paramScheme p).levels) :
    o ∈ usableList p h va d n ↔
      o.level = (paramScheme p).levels - 1 - d ∧ UsableAt p h d o n ∧
        inRange (paramScheme p) o va = true := by
  induction d generalizing o n with
  | zero =>
    simp only [usableList, List.mem_eraseDups, List.mem_filter, List.mem_append, List.mem_flatMap,
      List.mem_range, mem_rootReads_iff wf, mem_launchReads]
    constructor
    · rintro ⟨⟨t, ht, hroot, hr⟩ | ⟨hmem, hl, hb, hr⟩, hu⟩
      · have hl := hroot.level_eq
        exact ⟨by omega, ⟨t, hroot.readOK.1, by omega, .inl hroot, hu⟩, hr⟩
      · exact ⟨hl, ⟨0, hb.le, Nat.zero_le n, .inr ⟨rfl, hmem, hb⟩, hu⟩, hr⟩
    · rintro ⟨hl, ⟨t, -, ht, hroot | ⟨-, hmem, hb⟩, hu⟩, hr⟩
      · exact ⟨.inl ⟨t, by omega, hroot, hr⟩, hu⟩
      · exact ⟨.inr ⟨hmem, hl, hb, hr⟩, hu⟩
  | succ d ih =>
    have hparents : ∀ t, ∀ q, q ∈ usableList p h va d t ↔ _ := fun t q => ih (by omega)
    have hlevel : (paramScheme p).levels - 1 - (d + 1) < (paramScheme p).levels := by omega
    simp only [usableList, List.mem_eraseDups, List.mem_filter, List.mem_append, List.mem_flatMap,
      List.mem_range, mem_stepReads_iff wf hlevel, hparents, mem_launchReads]
    constructor
    · rintro ⟨⟨t, ht, q, ⟨-, hq, -⟩, hl, hparent, hr⟩ | ⟨hmem, hl, hb, hr⟩, hu⟩
      · exact ⟨hl, ⟨t, hparent.readOK.1, by omega, .inl ⟨q, hq, hparent⟩, hu⟩, hr⟩
      · exact ⟨hl, ⟨0, hb.le, Nat.zero_le n, .inr ⟨rfl, hmem, hb⟩, hu⟩, hr⟩
    · rintro ⟨hl, ⟨t, -, ht, ⟨q, hq, hparent⟩ | ⟨-, hmem, hb⟩, hu⟩, hr⟩
      · have ⟨_, hql, hwithin, _⟩ := hparent
        have hqr := inRange_of_rangeWithin hwithin hr
        exact ⟨.inl ⟨t, by omega, q, ⟨by omega, hq, hqr⟩, hl, hparent, hr⟩, hu⟩
      · exact ⟨.inr ⟨hmem, hl, hb, hr⟩, hu⟩

/-- The list a translation picks from holds exactly what the rules let it pick. -/
theorem mem_candidates_iff {n : Nat} : o ∈ candidates p h va n ↔ Candidate p h va n o := by
  simp only [candidates, List.mem_filter, List.mem_flatMap, List.mem_range, Bool.and_eq_true,
    Bool.or_eq_true, decide_eq_true_eq]
  constructor
  · rintro ⟨⟨d, hd, ho⟩, hterminal, hspace⟩
    obtain ⟨hl, hu, hr⟩ := (mem_usableList_iff wf hd).mp ho
    have hdepth : (paramScheme p).levels - 1 - o.level = d := by omega
    exact ⟨⟨by omega, hdepth ▸ hu⟩, hterminal, hr, hspace⟩
  · rintro ⟨⟨hl, hu⟩, hterminal, hr, hspace⟩
    have hd : (paramScheme p).levels - 1 - o.level < (paramScheme p).levels := by omega
    have hlist := (mem_usableList_iff wf hd).mpr ⟨by omega, hu, hr⟩
    exact ⟨⟨_, hd, hlist⟩, hterminal, hspace⟩

end

/-! The choice of a translation. -/

/-- Every member of a list is picked by some number. -/
theorem exists_pickFrom {l : List Observation} {o : Observation} (ho : o ∈ l) :
    ∃ choice, pickFrom l choice = some o := by
  obtain ⟨i, hi, rfl⟩ := List.getElem_of_mem ho
  exact ⟨i, by rw [pickFrom, Nat.mod_eq_of_lt hi, List.getElem?_eq_getElem hi]⟩

/-- A translation of a valid address that picks an observation uses it. -/
theorem translateWith_of_pick {s : State} {acc : Access} {va : Word} {choice : Nat}
    {o : Observation} (hactive : translationActive s = true)
    (hendian : s.params.dataEndian = .little) (hva : (paramScheme s.params).validVA va = true)
    (hpick : pickFrom (candidatesNow s va) choice = some o) :
    translateWith choice acc va s = useObservation acc va o { s with draws := s.draws + 1 } := by
  simp [translateWith, hactive, hendian, hva, hpick]

/-- An invalid entry lets no access through: whatever its other bits, the access faults. -/
theorem useObservation_invalid {s : State} {o : Observation} (acc : Access) (va : Word)
    (hinvalid : obsClass (paramScheme s.params) o = .invalid) :
    useObservation acc va o s = .error (.fault (.trap (pageFault acc) va)) := by
  simp [useObservation, permits, hinvalid, raise]

/-- Settles O29: the invalid observation is a candidate, so some choice picks it, and it faults; a
younger fence that subsumes it ends its use. -/
theorem aCachedInvalidPteMayFault : Obligations.ACachedInvalidPteMayFault := by
  intro s acc va o wf hv
  have hinvalid : obsClass (paramScheme s.params) o = .invalid := by simp [obsClass, hv]
  refine ⟨fun u hr hasid hactive hendian hva => ?_, fun f hf hborn hft hs u => ?_⟩
  · have hterminal : terminal (paramScheme s.params) o = true := by simp [terminal, hinvalid]
    have hmem : o ∈ candidatesNow s va :=
      (mem_candidates_iff wf).mpr ⟨u, hterminal, hr, .inl hasid⟩
    obtain ⟨choice, hpick⟩ := exists_pickFrom hmem
    refine ⟨choice, ?_⟩
    rw [translateWith_of_pick hactive hendian hva hpick]
    exact useObservation_invalid acc va hinvalid
  · exact Nat.not_le_of_lt hborn (u.fence_le_born hf hft hs)

/-! The walk made entirely at one time (20_memory.md R75, R81). -/

/-- What the walk reads at one level: the entry for `va` in the level-`l` table at `table`. -/
def walkRead (p : Params) (m : Memory) (va : Word) (now : Nat) (asid : Word) (l table : Nat)
    (g : Bool) : Observation :=
  let vb := spanBase (paramScheme p) l va
  let slot := slotOf (paramScheme p) table l vb
  let pte := valIn p m slot now
  { asid := asid, level := l, vbase := vb, slot := slot, pte := pte,
    gpath := g || (paramScheme p).gBit pte, born := now }

/-- The walk ends in what it reads when that is terminal, and goes on in the table it points to when
not. -/
theorem walkNow_succ (p : Params) (h : Hart) (va : Word) (now : Nat) (asid : Word) (l table : Nat)
    (g : Bool) :
    walkNow p h va now asid (l + 1) table g =
      if terminal (paramScheme p) (walkRead p h.mem va now asid l table g) = true then
        some (walkRead p h.mem va now asid l table g)
      else walkNow p h va now asid l
        ((paramScheme p).nextTable (walkRead p h.mem va now asid l table g).pte)
        (walkRead p h.mem va now asid l table g).gpath := rfl

section
variable {p : Params} {g h : Hart} {va : Word} {b : Nat} (wf : (paramScheme p).Wf)
  (hva : (paramScheme p).validVA va = true) (hb : h.timeline[b]? = some g.snap)
include wf hva hb

/-- A walk made at `b` reads as `ReadOK` asks of a read at `b`. -/
theorem readOK_walkRead {asid : Word} {l table : Nat} {gp : Bool}
    (hl : l < (paramScheme p).levels) :
    ReadOK p h (walkRead p g.mem va b asid l table gp) b :=
  readOK_intro wf hl le_rfl ⟨g.snap, hb, rfl⟩ (spanBase_spanBase _ _ _).symm
    ((validVA_spanBase wf hl va).trans hva)

/-- If what a walk made at `b` reads first may be used while it is unfenced, so may what the walk
ends in: each entry on its way is usable at `b` itself, where the next level is read from it. -/
theorem usable_walkNow {asid : Word} {l table n : Nat} {gp : Bool} {o : Observation} (hn : b ≤ n)
    (hread : ∀ m, b ≤ m → unfenced (paramScheme p) h.fenceLog
        (walkRead p g.mem va b asid l table gp) m = true →
      Usable p h (walkRead p g.mem va b asid l table gp) m)
    (hw : walkNow p g va b asid (l + 1) table gp = some o)
    (hu : unfenced (paramScheme p) h.fenceLog o n = true) : Usable p h o n := by
  induction l generalizing table gp with
  | zero =>
    rw [walkNow_succ] at hw
    split at hw
    · cases hw; exact hread n hn hu
    · simp [walkNow] at hw
  | succ l ih =>
    rw [walkNow_succ] at hw
    split at hw
    · cases hw; exact hread n hn hu
    · next hnonleaf =>
      have hq := hread b le_rfl (unfenced_born _ _ _)
      have hl : l + 1 < (paramScheme p).levels := hq.1
      refine ih (fun m hm hum => usable_of_parent (t := b) le_rfl hm hq ?_ hum) hw
      exact ⟨by simpa [terminal] using hnonleaf, rfl, rangeWithin_spanBase wf rfl rfl rfl, rfl,
        rfl, rfl, readOK_walkRead wf hva hb (by omega)⟩

/-- The newest walk of a past moment ends in a read that stays usable while no fence subsumes it. -/
theorem usable_newestWalk {n : Nat} {o : Observation} (hmode : g.satp.mode ≠ 0) (hn : b ≤ n)
    (hw : newestWalk p g va b = some o)
    (hu : unfenced (paramScheme p) h.fenceLog o n = true) : Usable p h o n := by
  obtain ⟨l, hl⟩ := Nat.exists_eq_succ_of_ne_zero wf.levels_pos.ne'
  rw [newestWalk, hl] at hw
  have hroot : FromRoot p h
      (walkRead p g.mem va b g.satp.asid l ((paramScheme p).rootAddr g.satp) false) b :=
    ⟨g.snap, hb, hmode, hl.symm, rfl, rfl, by simp [walkRead],
      readOK_walkRead wf hva hb (by omega)⟩
  exact usable_walkNow wf hva hb hn (fun m hm hum => usable_of_root le_rfl hm hroot hum) hw hu

end

/-- The hart as it was at a time of its history held that time's snapshot. -/
theorem Hart.snap_rewind {h : Hart} {b : Nat} {sn : Snap} (hb : h.timeline[b]? = some sn) :
    (h.rewind b).snap = sn := by
  simp [Hart.rewind, hb, Hart.snap]

/-- Settles O24: the hart rewound to `b` walks the memory and the root of that time, so its walk ends
in an admitted read; and no fence that subsumes a usable read is younger than it. -/
theorem anyTranslationSinceTheFenceIsUsable : Obligations.AnyTranslationSinceTheFenceIsUsable := by
  intro p h va b n sn o wf hva hn hb hmode
  have hsnap := Hart.snap_rewind hb
  have hsatp : (h.rewind b).satp = sn.satp := congrArg Snap.satp hsnap
  refine ⟨fun hw hu => ?_, fun q f u hf hft hs => u.fence_le_born hf hft hs⟩
  exact usable_newestWalk wf hva (by rw [hb, hsnap]) (by rwa [hsatp]) hn hw hu

/-! Carrying an admitted observation to another history, and to a later time. -/

/-- Whatever the history of `g` admits up to the time `n`, that of `h` admits too: the same
snapshots, at least the same initial observations, and a log that ends no use that the log of `g` does
not. -/
structure AdmitsAsMuch (p : Params) (n : Nat) (g h : Hart) : Prop where
  timeline : ∀ t ≤ n, h.timeline[t]? = g.timeline[t]?
  initialObs : g.initialObs ⊆ h.initialObs
  unfenced : ∀ o, ∀ t ≤ n, unfenced (paramScheme p) g.fenceLog o t = true →
    unfenced (paramScheme p) h.fenceLog o t = true

section
variable {p : Params} {n : Nat} {g h : Hart}

theorem AdmitsAsMuch.mono {m : Nat} (a : AdmitsAsMuch p n g h) (hm : m ≤ n) :
    AdmitsAsMuch p m g h where
  timeline t ht := a.timeline t (ht.trans hm)
  initialObs := a.initialObs
  unfenced o t ht := a.unfenced o t (ht.trans hm)

theorem AdmitsAsMuch.readOK {o : Observation} {t : Nat} (a : AdmitsAsMuch p n g h) (ht : t ≤ n)
    (r : ReadOK p g o t) : ReadOK p h o t := by
  obtain ⟨hb, ⟨sn, hsn, hval⟩, hrest⟩ := r
  exact ⟨hb, ⟨sn, by rw [a.timeline _ (hb.trans ht), hsn], hval⟩, hrest⟩

theorem AdmitsAsMuch.fromRoot {o : Observation} {t : Nat} (a : AdmitsAsMuch p n g h) (ht : t ≤ n)
    (r : FromRoot p g o t) : FromRoot p h o t := by
  obtain ⟨sn, hsn, hmode, hlevel, hasid, hslot, hg, hread⟩ := r
  exact ⟨sn, by rw [a.timeline t ht, hsn], hmode, hlevel, hasid, hslot, hg, a.readOK ht hread⟩

theorem AdmitsAsMuch.fromParent {q o : Observation} {t : Nat} (a : AdmitsAsMuch p n g h)
    (ht : t ≤ n) (r : FromParent p g q o t) : FromParent p h q o t := by
  obtain ⟨hclass, hlevel, hwithin, hasid, hslot, hg, hread⟩ := r
  exact ⟨hclass, hlevel, hwithin, hasid, hslot, hg, a.readOK ht hread⟩

theorem AdmitsAsMuch.fromLaunch {o : Observation} {t : Nat} (a : AdmitsAsMuch p n g h)
    (r : FromLaunch g o t) : FromLaunch h o t :=
  ⟨r.1, a.initialObs r.2.1, r.2.2⟩

theorem AdmitsAsMuch.usableAt {d : Nat} {o : Observation} (a : AdmitsAsMuch p n g h)
    (u : UsableAt p g d o n) : UsableAt p h d o n := by
  induction d generalizing o n with
  | zero =>
    obtain ⟨t, hb, ht, hread, hu⟩ := u
    exact ⟨t, hb, ht, hread.imp (a.fromRoot ht) a.fromLaunch, a.unfenced o n le_rfl hu⟩
  | succ d ih =>
    obtain ⟨t, hb, ht, hread, hu⟩ := u
    refine ⟨t, hb, ht, hread.imp ?_ a.fromLaunch, a.unfenced o n le_rfl hu⟩
    rintro ⟨q, hq, hparent⟩
    exact ⟨q, ih (a.mono ht) hq, a.fromParent ht hparent⟩

/-- What is usable in a history is usable in one that admits as much. -/
theorem AdmitsAsMuch.usable {o : Observation} (a : AdmitsAsMuch p n g h) (u : Usable p g o n) :
    Usable p h o n :=
  ⟨u.1, a.usableAt u.2⟩

end

/-- A hart whose past is the timeline of `g` had at each of those times what `g` had. -/
theorem Hart.timeline_of_past {g h : Hart} (hp : h.past = g.timeline) {t : Nat}
    (ht : t < g.timeline.length) : h.timeline[t]? = g.timeline[t]? := by
  rw [Hart.timeline, hp, List.getElem?_append_left ht]

theorem Hart.timeline_length (h : Hart) : h.timeline.length = h.past.length + 1 := by
  simp [Hart.timeline]

/-! What an instruction does to other harts (20_memory.md R78). -/

/-- The new time a step begins does not change what a hart may use at the times before it. -/
theorem usable_tick_iff {p : Params} {g : Hart} {o : Observation} {n : Nat}
    (hn : n < g.timeline.length) : Usable p g.tick o n ↔ Usable p g o n := by
  have same : ∀ t ≤ n, g.tick.timeline[t]? = g.timeline[t]? := fun t ht =>
    Hart.timeline_of_past rfl (ht.trans_lt hn)
  constructor
  · exact AdmitsAsMuch.usable ⟨fun t ht => (same t ht).symm, fun _ => id, fun _ _ _ => id⟩
  · exact AdmitsAsMuch.usable ⟨same, fun _ => id, fun _ _ _ => id⟩

/-- A completed instruction, from its fetch on, acts on the moving hart: it keeps the hart's
identity, only appends to its fence log, and touches no other hart. -/
theorem instruction_frame {i : Instr} {s s' t : State} (hf : fetchInstr s = .ok (i, s'))
    (hx : exec i s' = .next t) :
    t.hart.id = s.hart.id ∧ s.hart.fenceLog <+: t.hart.fenceLog ∧ t.others = s.others := by
  have r := fetchInstr_readsOnly hf
  have hid : s'.hart.id = s.hart.id := by rw [r.hart]
  have hlog : s'.hart.fenceLog = s.hart.fenceLog := by rw [r.hart]
  cases i with
  | sfenceVma rs1 rs2 =>
    obtain ⟨hstate, hhart, -, hgrow⟩ := execSfenceVma_hart hx
    refine ⟨by rw [hhart]; exact hid, ?_, by rw [hstate]; exact r.others⟩
    rw [← hlog]
    rcases hgrow with h | ⟨f, h, -⟩
    · rw [h]
    · rw [h]; exact List.prefix_append _ _

/-- A step whose turn is an instruction fetched it and ran it. -/
theorem step_instruction {s s1 t : State} (e : step s = .next t)
    (ht : nextTurn s = .ok (none, s1)) :
    ∃ i s2, fetchInstr s1 = .ok (i, s2) ∧ exec i s2 = .next t := by
  obtain ⟨a, s1', h1, h2⟩ := step_next e
  rw [ht] at h1
  cases h1
  exact h2

/-- With an empty agenda the hart that moved last runs an instruction. -/
theorem nextTurn_nil {s : State} (h : s.agenda = []) : nextTurn s = .ok (none, tick s) := by
  simp only [nextTurn, h]

/-- The turn of an instruction that a step took: the hart it names is there and moves. -/
theorem nextTurn_instr {s : State} {a : Option EnvAct} {s' : State} {id : Nat} {rest : List Turn}
    (h : s.agenda = .instr id :: rest) (e : nextTurn s = .ok (a, s')) :
    ∃ s1, switchTo id { s with agenda := rest } = .ok s1 ∧ nextTurn s = .ok (none, tick s1) := by
  simp only [nextTurn, h] at e ⊢
  split at e
  · next s1 h1 => exact ⟨s1, h1, by simp⟩
  · cases e

/-- Settles O34: the frame of an instruction, for both kinds of turn, and the frame of time for what
the other harts may use. -/
theorem anInstructionActsOnItsHartOnly : Obligations.AnInstructionActsOnItsHartOnly := by
  intro s t e
  refine ⟨fun hagenda => ?_, fun id rest hagenda => ?_, fun p g o n hn => usable_tick_iff hn⟩
  · obtain ⟨i, s2, hf, hx⟩ := step_instruction e (nextTurn_nil hagenda)
    exact instruction_frame hf hx
  · obtain ⟨a, s', hturn, -⟩ := step_next e
    obtain ⟨s1, hswitch, hturn1⟩ := nextTurn_instr hagenda hturn
    obtain ⟨i, s2, hf, hx⟩ := step_instruction e hturn1
    obtain ⟨hid, hlog, hothers⟩ := instruction_frame hf hx
    obtain ⟨hnamed, -, -⟩ := switchTo_ok hswitch
    exact ⟨s1, hswitch, hid.trans hnamed, hlog, hothers⟩

/-! What a hart's own accesses leave usable (20_memory.md R61). -/

/-- On a timed history what is unfenced now is unfenced at any later time, until the log grows. -/
theorem unfenced_later {sc : Scheme} {h : Hart} {o : Observation} {now n : Nat}
    (ht : h.timed now = true) (hu : unfenced sc h.fenceLog o now = true) :
    unfenced sc h.fenceLog o n = true := by
  have hlog : ∀ f ∈ h.fenceLog, f.time ≤ now := by
    simp only [Hart.timed, Bool.and_eq_true, List.all_eq_true, decide_eq_true_eq] at ht
    exact ht.2
  exact unfenced_iff.mpr fun f hf hb _ => unfenced_iff.mp hu f hf hb (hlog f hf)

/-- Whatever was usable before an environment action is usable after it, one time later. -/
theorem EnvEffects.usable_tick {s t : State} {o : Observation} (e : EnvEffects (tick s) t)
    (ht : s.timed = true) (u : Usable s.params s.hart o s.now) :
    Usable t.params t.hart o t.now := by
  have htimed : s.hart.timed s.now = true := by
    simp only [State.timed, State.harts, List.all_cons, Bool.and_eq_true] at ht
    exact ht.1
  have hlen : s.hart.timeline.length = s.now + 1 := by
    simp only [Hart.timed, Bool.and_eq_true, decide_eq_true_eq] at htimed
    rw [Hart.timeline_length, htimed.1]
  have hlog : t.hart.fenceLog = s.hart.fenceLog := e.fenceLog
  have kept : AdmitsAsMuch s.params s.now s.hart t.hart :=
    ⟨fun b hb => Hart.timeline_of_past e.past (by omega), e.initialObs ▸ List.Subset.refl _,
      fun o b _ hu => by rw [hlog]; exact hu⟩
  rw [e.params, e.now]
  refine (kept.usable u).later (Nat.le_succ _) ?_
  rw [hlog]
  exact unfenced_later htimed u.2.unfenced

/-- Settles O28: stores and loads are environment actions, the implicit writes of their translations
included, so they leave the history and the log alone. -/
theorem accessesEndNoTranslation : Obligations.AccessesEndNoTranslation := by
  intro s o ht u
  exact ⟨fun pa n v => (memWrite_effects (tick s) pa n v).usable_tick ht u,
    fun va n t e => (envLoad_effects e).usable_tick ht u,
    fun va n v t e => (envStore_effects e).usable_tick ht u⟩

end Sys2Proof.Machine

/-! SFENCE.VMA traps on account of the mode and the parameters alone (60_exceptions.md R153). -/

namespace Sys2Proof.Machine

theorem exec_sfenceVma_of_illegal {s : State} (h : sfenceIllegal s = true) (rs1 rs2 : Reg) :
    exec (.sfenceVma rs1 rs2) s =
      .fault (.trap .illegalInstruction ((encode (.sfenceVma rs1 rs2)).zeroExtend 64)) :=
  if_pos h

theorem exec_sfenceVma_of_legal {s : State} (h : sfenceIllegal s = false) (rs1 rs2 : Reg) :
    exec (.sfenceVma rs1 rs2) s =
      .next (retire (advancePc (recordFence (vaSel rs1 s) (asidSel rs2 s) s))) :=
  if_neg (Bool.eq_false_iff.mp h)

/-- It completes exactly where the check of the mode and the parameters lets it through. -/
theorem exec_sfenceVma_completes_iff (rs1 rs2 : Reg) (s : State) :
    (∃ t, exec (.sfenceVma rs1 rs2) s = .next t) ↔ sfenceIllegal s = false :=
  ⟨fun ⟨_, e⟩ => (execSfenceVma_next e).1, fun h => ⟨_, exec_sfenceVma_of_legal h rs1 rs2⟩⟩

@[simp] theorem tvmBit_setX (s : State) (r : Reg) (v : Word) : tvmBit (setX s r v) = tvmBit s := by
  simp [tvmBit]

@[simp] theorem privilegeForbids_setX (s : State) (r : Reg) (v : Word) :
    privilegeForbids (setX s r v) = privilegeForbids s := by
  simp [privilegeForbids]

/-- The check reads no register. -/
@[simp] theorem sfenceIllegal_setX (s : State) (r : Reg) (v : Word) :
    sfenceIllegal (setX s r v) = sfenceIllegal s := by
  simp [sfenceIllegal]

/-- Settles O12: completion is the check, which reads no register; where the check fails the outcome
is the one illegal-instruction trap, and where it passes it is a next state. -/
theorem operandValuesRaiseNothing : Obligations.OperandValuesRaiseNothing := by
  intro rs1 rs2 r v s
  refine ⟨by simp only [exec_sfenceVma_completes_iff, sfenceIllegal_setX], ?_⟩
  cases h : sfenceIllegal s with
  | true =>
    rw [exec_sfenceVma_of_illegal h]
    exact ⟨fun f e => (Host.Outcome.fault.inj e).symm, nofun⟩
  | false =>
    rw [exec_sfenceVma_of_legal h]
    exact ⟨nofun, nofun⟩

end Sys2Proof.Machine

/-! PROOF. The encoding of SFENCE.VMA, field by field and byte by byte (30_encoding.md). -/

namespace Sys2Proof

/-- Two words are equal when they agree in the six fields of R111. -/
theorem word_eq_iff_fields {w v : BitVec 32} :
    w = v ↔ w.extractLsb' 0 7 = v.extractLsb' 0 7 ∧ w.extractLsb' 7 5 = v.extractLsb' 7 5 ∧
      w.extractLsb' 12 3 = v.extractLsb' 12 3 ∧ w.extractLsb' 15 5 = v.extractLsb' 15 5 ∧
      w.extractLsb' 20 5 = v.extractLsb' 20 5 ∧ w.extractLsb' 25 7 = v.extractLsb' 25 7 := by
  have append : ∀ u : BitVec 32, u.extractLsb' 25 7 ++ u.extractLsb' 20 5 ++ u.extractLsb' 15 5 ++
      u.extractLsb' 12 3 ++ u.extractLsb' 7 5 ++ u.extractLsb' 0 7 = u := by
    intro u
    simp only [BitVec.extractLsb'_append_extractLsb'_eq_extractLsb', BitVec.extractLsb'_eq_self]
  constructor
  · rintro rfl; simp
  · rintro ⟨hop, hrd, hf3, hrs1, hrs2, hf7⟩
    rw [← append w, ← append v, hop, hrd, hf3, hrs1, hrs2, hf7]

/-- The mask keeps the four fixed fields and clears the two register fields. -/
theorem mask_test_iff_fields (w : BitVec 32) : w &&& sfenceMask = sfenceMatch ↔
    w.extractLsb' 0 7 = 0b1110011#7 ∧ w.extractLsb' 7 5 = 0#5 ∧ w.extractLsb' 12 3 = 0#3 ∧
      w.extractLsb' 25 7 = 0b0001001#7 := by
  have keep7 (x : BitVec 7) : x &&& 127#7 = x := BitVec.and_allOnes
  have keep5 (x : BitVec 5) : x &&& 31#5 = x := BitVec.and_allOnes
  have keep3 (x : BitVec 3) : x &&& 7#3 = x := BitVec.and_allOnes
  rw [word_eq_iff_fields]
  simp [sfenceMask, sfenceMatch, BitVec.extractLsb'_and, keep7, keep5, keep3]

/-- The fields of an encoding: the register fields hold the specifiers. -/
theorem encode_fields (rs1 rs2 : Reg) :
    (encode (.sfenceVma rs1 rs2)).extractLsb' 0 7 = 0b1110011#7 ∧
      (encode (.sfenceVma rs1 rs2)).extractLsb' 7 5 = 0#5 ∧
      (encode (.sfenceVma rs1 rs2)).extractLsb' 12 3 = 0#3 ∧
      (encode (.sfenceVma rs1 rs2)).extractLsb' 15 5 = rs1 ∧
      (encode (.sfenceVma rs1 rs2)).extractLsb' 20 5 = rs2 ∧
      (encode (.sfenceVma rs1 rs2)).extractLsb' 25 7 = 0b0001001#7 := by
  refine ⟨?_, ?_, ?_, ?_, ?_, ?_⟩ <;> ext i hi <;> interval_cases i <;> simp [encode, sfenceMatch]

theorem decodeWord_eq_ok_iff (w : BitVec 32) (i : Instr) :
    decodeWord w = .ok i ↔ w &&& sfenceMask = sfenceMatch ∧
      i = .sfenceVma (w.extractLsb' 15 5) (w.extractLsb' 20 5) := by
  unfold decodeWord
  split <;> simp_all [eq_comm]

/-- Settles O1: the mask test is the four fixed fields, and the other two fields are the
instruction's; together they are the word. -/
theorem decodeInvertsEncode : Obligations.DecodeInvertsEncode := by
  intro w i
  obtain ⟨rs1, rs2⟩ := i
  obtain ⟨hop, hrd, hf3, hrs1, hrs2, hf7⟩ := encode_fields rs1 rs2
  rw [decodeWord_eq_ok_iff, mask_test_iff_fields, word_eq_iff_fields, hop, hrd, hf3, hrs1, hrs2,
    hf7, Instr.sfenceVma.injEq]
  tauto

/-- SYSTEM is an opcode of 32-bit instructions. -/
theorem low_of_system {w : BitVec 32} (h : w.extractLsb' 0 7 = 0b1110011#7) :
    w.extractLsb' 0 2 = 0b11#2 := by
  have low : w.extractLsb' 0 2 = (w.extractLsb' 0 7).extractLsb' 0 2 := by simp
  rw [low, h]
  rfl

/-- The length of an instruction is told by the low bits of its first byte, which are the word's. -/
theorem wordOfBytes_low (b0 b1 b2 b3 : Byte) :
    (wordOfBytes b0 b1 b2 b3).extractLsb' 0 2 = b0.extractLsb' 0 2 :=
  BitVec.extractLsb'_append_eq_of_add_le (by decide)

/-- The bytes of a word are those it was put together from. -/
theorem bytesOfWord_wordOfBytes (b0 b1 b2 b3 : Byte) :
    bytesOfWord (wordOfBytes b0 b1 b2 b3) = [b0, b1, b2, b3] := by
  have bytes : (b3 ++ b2 ++ b1 ++ b0).extractLsb' 0 8 = b0 ∧
      (b3 ++ b2 ++ b1 ++ b0).extractLsb' 8 8 = b1 ∧
      (b3 ++ b2 ++ b1 ++ b0).extractLsb' 16 8 = b2 ∧
      (b3 ++ b2 ++ b1 ++ b0).extractLsb' 24 8 = b3 := by
    simp only [BitVec.extractLsb'_append_eq_of_le, BitVec.extractLsb'_append_eq_right,
      Nat.reduceLeDiff, Nat.reduceSub, BitVec.extractLsb'_eq_self, and_self]
  simp only [bytesOfWord, wordOfBytes, List.cons.injEq, and_true]
  exact bytes

/-- Four bytes are the bytes of a word exactly when they make the word. -/
theorem bytesOfWord_eq_iff {w : BitVec 32} {b0 b1 b2 b3 : Byte} :
    bytesOfWord w = [b0, b1, b2, b3] ↔ wordOfBytes b0 b1 b2 b3 = w := by
  constructor
  · intro h
    simp only [bytesOfWord, List.cons.injEq, and_true] at h
    obtain ⟨rfl, rfl, rfl, rfl⟩ := h
    simp only [wordOfBytes, BitVec.extractLsb'_append_extractLsb'_eq_extractLsb',
      BitVec.extractLsb'_eq_self]
  · rintro rfl
    exact bytesOfWord_wordOfBytes b0 b1 b2 b3

/-- A list decodes when it starts with the four bytes of a word that decodes. -/
theorem decodeBytes_eq_ok_iff {bs rest : List Byte} {i : Instr} :
    decodeBytes bs = .ok (i, rest) ↔ ∃ b0 b1 b2 b3, bs = [b0, b1, b2, b3] ++ rest ∧
      b0.extractLsb' 0 2 = 0b11#2 ∧ decodeWord (wordOfBytes b0 b1 b2 b3) = .ok i := by
  constructor
  · intro h
    unfold decodeBytes at h
    split at h
    · cases h
    · split at h
      · cases h
      · next hlow =>
        split at h
        · split at h
          · next hword => cases h; exact ⟨_, _, _, _, rfl, not_ne_iff.mp hlow, hword⟩
          · cases h
        · cases h
  · rintro ⟨b0, b1, b2, b3, rfl, hlow, hword⟩
    simp [decodeBytes, hlow, hword]

/-- Settles O2: the four bytes that decode make the encoding, so they are its bytes. -/
theorem decodeBytesInvertsEncodeBytes : Obligations.DecodeBytesInvertsEncodeBytes := by
  intro bs rest i
  rw [decodeBytes_eq_ok_iff]
  constructor
  · rintro ⟨b0, b1, b2, b3, rfl, -, hword⟩
    rw [decodeInvertsEncode, ← bytesOfWord_eq_iff] at hword
    rw [encodeBytes, hword]
  · rintro rfl
    obtain ⟨rs1, rs2⟩ := i
    have hword := bytesOfWord_eq_iff.mp (rfl : bytesOfWord (encode (.sfenceVma rs1 rs2)) = _)
    have hlow := low_of_system (encode_fields rs1 rs2).1
    exact ⟨_, _, _, _, rfl, by rw [← wordOfBytes_low, hword, hlow],
      (decodeInvertsEncode _ _).mpr hword⟩

/-- Settles O3: both sides are the four fixed fields. -/
theorem maskTestIsTheFieldTest : Obligations.MaskTestIsTheFieldTest := by
  intro w
  rw [mask_test_iff_fields]
  simp [wordWellFormed, opcodeOk, rdOk, funct3Ok, funct7Ok, and_assoc]

/-- Settles O4: the mask test fails on rd, and the tests of `classify` before that of the reserved
words all pass. -/
theorem nonzeroRdIsReserved : Obligations.NonzeroRdIsReserved := by
  intro w hop hf3 hf7 hrd
  have hmask : ¬ w &&& sfenceMask = sfenceMatch := by
    rw [maskTestIsTheFieldTest, wordWellFormed, hrd]; simp
  simp only [opcodeOk, funct3Ok, funct7Ok, beq_iff_eq] at hop hf3 hf7
  simp [decodeWord, if_neg hmask, classify, hop, hf3, hf7, low_of_system hop]

/-- Settles O5: fixed words, each evaluated. -/
theorem neighbourWordsAreRejected : Obligations.NeighbourWordsAreRejected := by
  unfold Obligations.NeighbourWordsAreRejected
  decide

end Sys2Proof

/-! PROOF. The assembler's spelling of the registers (30_encoding.md R117, R118). -/

namespace Sys2Proof.Machine

/-- In a list without repetitions a name has one place. -/
theorem idxOf?_eq_some_iff_getElem? {l : List String} (hl : l.Nodup) {name : String} {n : Nat} :
    l.idxOf? name = some n ↔ l[n]? = some name := by
  rw [List.idxOf?_eq_some_iff, List.getElem?_eq_some_iff]
  constructor
  · rintro ⟨hn, h, -⟩
    exact ⟨hn, h⟩
  · rintro ⟨hn, h⟩
    refine ⟨hn, h, fun j hj hjname => ?_⟩
    have := (hl.getElem_inj_iff (hi := hj.trans hn) (hj := hn)).mp (hjname.trans h.symm)
    omega

theorem regNames_nodup : regNames.Nodup := by decide

theorem aliasNames_nodup : aliasNames.Nodup := by decide

/-- No alias is a register's number. -/
theorem idxOf?_regNames_of_alias {name : String} (h : name ∈ aliasNames) :
    regNames.idxOf? name = none := by
  revert name
  decide

theorem idxOf?_names_fp : regNames.idxOf? "fp" = none ∧ aliasNames.idxOf? "fp" = none := by decide

/-- The place of a name in a list of 32, as a register. -/
theorem toNat_of_getElem? {l : List String} (hl : l.length = 32) {name : String} {n : Nat}
    (h : l[n]? = some name) : (BitVec.ofNat 5 n).toNat = n := by
  have hn := (List.getElem?_eq_some_iff.mp h).1
  rw [BitVec.toNat_ofNat, Nat.mod_eq_of_lt (by omega)]

/-- A name stands for a register exactly when it is a spelling of it. -/
theorem regOf_eq_some_iff (name : String) (r : Reg) : regOf name = some r ↔ IsNameOf name r := by
  have hreg := @idxOf?_eq_some_iff_getElem? _ regNames_nodup name
  have halias := @idxOf?_eq_some_iff_getElem? _ aliasNames_nodup name
  unfold regOf IsNameOf
  constructor
  · intro h
    split at h
    · next n hn =>
      cases h
      exact .inl (by rw [toNat_of_getElem? rfl (hreg.mp hn)]; exact hreg.mp hn)
    · split at h
      · next n hn =>
        cases h
        exact .inr (.inl (by rw [toNat_of_getElem? rfl (halias.mp hn)]; exact halias.mp hn))
      · split at h
        · next hfp => cases h; exact .inr (.inr ⟨hfp, rfl⟩)
        · cases h
  · rintro (h | h | ⟨rfl, rfl⟩)
    · simp [hreg.mpr h]
    · simp [idxOf?_regNames_of_alias (List.mem_of_getElem? h), halias.mpr h]
    · simp [idxOf?_names_fp]

theorem regOf_eq_none_iff (name : String) : regOf name = none ↔ ∀ r, ¬ IsNameOf name r := by
  simp [Option.eq_none_iff_forall_ne_some, regOf_eq_some_iff]

/-- Settles O50: a name gives the register it spells and no other, and a word that is no name gives
none. -/
theorem assemblerSpelling : Obligations.AssemblerSpelling := by
  refine ⟨rfl, by decide, by decide, by decide, by decide, by decide, fun _ => rfl,
    fun _ _ _ _ => rfl, fun a b rs1 rs2 ha hb => ?_, fun a b h => ?_⟩
  · simp [assemble, (regOf_eq_some_iff _ _).mpr ha, (regOf_eq_some_iff _ _).mpr hb]
  · rcases h with h | h
    · simp [assemble, (regOf_eq_none_iff _).mpr h]
    · simp [assemble, (regOf_eq_none_iff _).mpr h]

end Sys2Proof.Machine

/-! PROOF. What every step keeps (10_state.md sections 4 and 7, 20_memory.md section 6). -/

namespace Sys2Proof.Machine

section
variable {s hs t : State}

/-- The hart that moves is one of the harts. -/
theorem StepEffects.mover_mem (e : StepEffects s hs t) : hs.hart ∈ s.harts :=
  e.perm.mem_iff.mp List.mem_cons_self

/-- Of a hart that does not move, a step makes the present past, and changes at most its memory. -/
theorem StepEffects.other (e : StepEffects s hs t) {g : Hart} (hg : g ∈ t.others) :
    ∃ g' ∈ s.harts, g = { g'.tick with mem := g.mem } ∧
      (g'.mem.wf = true → g.mem.wf = true) := by
  obtain ⟨f, hothers, hf⟩ := e.others
  rw [hothers, List.mem_map] at hg
  obtain ⟨g', hg', rfl⟩ := hg
  exact ⟨g', e.perm.mem_iff.mp (List.mem_cons_of_mem _ hg'), (hf g'.tick).1, (hf g'.tick).2⟩

end

/-- A statement about each hart of a state is one about the moving hart and one about the others. -/
theorem forall_mem_harts {s : State} {P : Hart → Prop} :
    (∀ g ∈ s.harts, P g) ↔ P s.hart ∧ ∀ g ∈ s.others, P g := List.forall_mem_cons

theorem memWf_iff {s : State} : s.memWf = true ↔ ∀ g ∈ s.harts, g.memWf = true := List.all_eq_true

theorem timed_iff {s : State} : s.timed = true ↔ ∀ g ∈ s.harts, g.timed s.now = true :=
  List.all_eq_true

/-- What the history and the log of a timed hart say. -/
theorem Hart.timed_iff {now : Nat} {h : Hart} :
    h.timed now = true ↔ h.past.length = now ∧ ∀ f ∈ h.fenceLog, f.time ≤ now := by
  simp [Hart.timed]

theorem legal_iff {s : State} : s.legal = true ↔ ∀ g ∈ s.harts, g.legal s.params = true :=
  List.all_eq_true

/-- Settles O44: the moving hart's memory is written canonically, another hart's only by what a data
fence delivers to it. -/
theorem memoryStaysCanonical : Obligations.MemoryStaysCanonical := by
  intro s t hs e
  obtain ⟨u, e⟩ := step_effects e
  rw [memWf_iff] at hs
  rw [memWf_iff, forall_mem_harts]
  refine ⟨e.memWf (hs _ e.mover_mem), fun g hg => ?_⟩
  obtain ⟨g', hg', hhart, hmem⟩ := e.other hg
  have htick := Hart.tick_memWf (hs g' hg')
  rw [hhart]
  simp only [Hart.memWf, Bool.and_eq_true] at htick ⊢
  exact ⟨hmem htick.1, htick.2⟩

/-- Settles O45: every hart's present becomes past, and the one record a step can append is of the
new time. -/
theorem timeAdvancesAndHistoriesKeepPace : Obligations.TimeAdvancesAndHistoriesKeepPace := by
  intro s t hs e
  obtain ⟨u, e⟩ := step_effects e
  rw [timed_iff] at hs
  refine ⟨?_, e.now⟩
  rw [timed_iff, forall_mem_harts, e.now]
  constructor
  · obtain ⟨hpast, hbefore⟩ := Hart.timed_iff.mp (Hart.tick_timed (hs _ e.mover_mem))
    refine Hart.timed_iff.mpr ⟨by rw [e.past]; exact hpast, ?_⟩
    rcases e.log with hlog | ⟨f, hlog, hf, -⟩
    · rw [hlog]
      exact hbefore
    · rw [hlog, List.forall_mem_append, List.forall_mem_singleton, hf, e.now]
      exact ⟨hbefore, le_rfl⟩
  · intro g hg
    obtain ⟨g', hg', hhart, -⟩ := e.other hg
    rw [hhart]
    exact Hart.tick_timed (hs g' hg')

/-- Settles O46: for the hart that moves and for the others. -/
theorem thePastIsNeverRewritten : Obligations.ThePastIsNeverRewritten := by
  intro s t e
  obtain ⟨u, e⟩ := step_effects e
  rw [forall_mem_harts]
  refine ⟨⟨u.hart, e.mover_mem, e.id.symm, e.past⟩, fun g hg => ?_⟩
  obtain ⟨g', hg', hhart, -⟩ := e.other hg
  exact ⟨g', hg', by rw [hhart]; exact ⟨rfl, rfl⟩⟩

/-- Settles O47: a step keeps the moving hart legal, and changes no control register of another. -/
theorem hartsStayLegal : Obligations.HartsStayLegal := by
  intro s t hs e
  obtain ⟨u, e⟩ := step_effects e
  rw [legal_iff] at hs
  rw [legal_iff, forall_mem_harts, e.params]
  refine ⟨e.legal (hs _ e.mover_mem), fun g hg => ?_⟩
  obtain ⟨g', hg', hhart, -⟩ := e.other hg
  rw [hhart]
  exact Hart.tick_legal (hs g' hg')

/-- Settles O48: the harts are permuted by the turn, and a step keeps each one's identifier. -/
theorem parametersNeverChange : Obligations.ParametersNeverChange := by
  intro s t e
  obtain ⟨u, e⟩ := step_effects e
  obtain ⟨f, hothers, hf⟩ := e.others
  have hid : ∀ g, (f g).id = g.id := fun g => by rw [(hf g).1]
  have hids : t.harts.map (·.id) = u.harts.map (·.id) := by
    simp [State.harts, e.id, hothers, hid]
  exact ⟨e.params, hids ▸ e.perm.map _⟩

/-- A step only lengthens the fence log of a hart. -/
theorem step_fenceLog {s t : State} (e : step s = .next t) :
    ∀ g ∈ t.harts, ∃ g' ∈ s.harts, g'.id = g.id ∧ g'.fenceLog <+: g.fenceLog := by
  obtain ⟨u, e⟩ := step_effects e
  rw [forall_mem_harts]
  refine ⟨⟨u.hart, e.mover_mem, e.id.symm, ?_⟩, fun g hg => ?_⟩
  · rcases e.log with hlog | ⟨f, hlog, -⟩
    · rw [hlog]
    · rw [hlog]
      exact List.prefix_append _ _
  · obtain ⟨g', hg', hhart, -⟩ := e.other hg
    exact ⟨g', hg', by rw [hhart]; exact ⟨rfl, List.prefix_rfl⟩⟩

/-- What a step makes of the log of the moving hart: it stays, or the fetched SFENCE.VMA appended one
record of the present. -/
theorem step_mover_fenceLog {s t : State} (e : step s = .next t) :
    ∃ g' ∈ s.harts, g'.id = t.hart.id ∧
      (t.hart.fenceLog = g'.fenceLog ∨
        ∃ f, t.hart.fenceLog = g'.fenceLog ++ [f] ∧ f.time = t.now ∧
          ∃ s1 s2 rs1 rs2, nextTurn s = .ok (none, s1) ∧
            fetchInstr s1 = .ok (.sfenceVma rs1 rs2, s2)) := by
  obtain ⟨a, s1, hturn, hact⟩ := step_next e
  obtain ⟨u, hperm, rfl, -⟩ := nextTurn_ok hturn
  refine ⟨u.hart, hperm.mem_iff.mp List.mem_cons_self, ?_⟩
  cases a with
  | some a =>
    have hact := envAct_effects hact
    exact ⟨hact.id.symm, .inl hact.fenceLog⟩
  | none =>
    obtain ⟨⟨rs1, rs2⟩, s2, hfetch, hexec⟩ := hact
    obtain ⟨hstate, hhart, -, hlog⟩ := execSfenceVma_hart hexec
    have hread := (fetchInstr_readsOnly hfetch).hart
    have hid : t.hart.id = u.hart.id := by rw [hhart, hread]; rfl
    have hs2 : s2.hart.fenceLog = u.hart.fenceLog := by rw [hread]; rfl
    rw [hs2] at hlog
    refine ⟨hid.symm, hlog.imp id ?_⟩
    rintro ⟨f, hf, htime, -⟩
    exact ⟨f, hf, by rw [htime, hstate], tick u, s2, rs1, rs2, hturn, hfetch⟩

/-- Settles O35: the moving hart's log, and the log of every other hart, which a step leaves alone. -/
theorem onlyAFenceGrowsTheLog : Obligations.OnlyAFenceGrowsTheLog := by
  intro s t e
  refine ⟨fun g hg => ?_, step_mover_fenceLog e⟩
  obtain ⟨u, e⟩ := step_effects e
  obtain ⟨g', hg', hhart, -⟩ := e.other hg
  exact ⟨g', hg', by rw [hhart]; exact ⟨rfl, rfl⟩⟩

/-- What every step keeps, any number of steps keep. -/
theorem run_keeps {I : State → Prop} (hstep : ∀ s t, I s → step s = .next t → I t) {k : Nat}
    {s t : State} (hs : I s) (e : core.run k s = .next t) : I t := by
  induction k generalizing s with
  | zero => cases e; exact hs
  | succ k ih =>
    simp only [Host.Core.run] at e
    split at e
    · next s1 hs1 => exact ih (hstep s s1 hs hs1) e
    · cases e
    · cases e

/-- The parameters are `p`, and the fence is in the log of every hart with this identifier. -/
def HoldsFence (p : Params) (id : Nat) (f : FenceRec) (s : State) : Prop :=
  s.params = p ∧ ∀ h ∈ s.harts, h.id = id → f ∈ h.fenceLog

/-- Once in a log, a fence stays there. -/
theorem HoldsFence.step {p : Params} {id : Nat} {f : FenceRec} {s t : State}
    (h : HoldsFence p id f s) (e : step s = .next t) : HoldsFence p id f t := by
  obtain ⟨hparams, hlog⟩ := h
  refine ⟨(parametersNeverChange s t e).1.trans hparams, fun g hg hid => ?_⟩
  obtain ⟨g', hg', hid', hgrows⟩ := step_fenceLog e g hg
  exact hgrows.subset (hlog g' hg' (hid'.trans hid))

/-- Settles O20: the fence stays in the log of every hart with the identifier, so no younger use of
what it subsumes is admitted. -/
theorem fencedStaysFenced : Obligations.FencedStaysFenced := by
  intro k s t f o g hf hsub hborn hnodup hrun hg hid n hn u
  have hstart : HoldsFence s.params s.hart.id f s := by
    refine ⟨rfl, fun h hh hid => ?_⟩
    rwa [List.inj_on_of_nodup_map hnodup hh List.mem_cons_self hid]
  obtain ⟨hparams, hlog⟩ := run_keeps (fun _ _ => HoldsFence.step) hstart hrun
  rw [hparams] at u
  exact absurd (u.fence_le_born (hlog g hg hid) hn hsub) (Nat.not_le_of_lt hborn)

end Sys2Proof.Machine

/-! PROOF. Registers, operands, and what SFENCE.VMA does (10_state.md section 1, 40_sfence_vma.md
sections 3 to 6, 60_exceptions.md section 2). -/

namespace Sys2Proof.Machine

/-! Registers. -/

@[simp] theorem getX_zero (s : State) : getX s 0#5 = 0#64 := rfl

@[simp] theorem setX_zero (s : State) (v : Word) : setX s 0#5 v = s := rfl

theorem getX_of_ne_zero {r : Reg} (hr : r ≠ 0#5) (s : State) :
    getX s r = trunc s.params (s.hart.x[r.toNat - 1]'(by have := r.isLt; omega)) := if_neg hr

theorem setX_of_ne_zero {r : Reg} (hr : r ≠ 0#5) (s : State) (v : Word) :
    setX s r v = { s with hart := { s.hart with
      x := s.hart.x.set (r.toNat - 1) (trunc s.params v) (by have := r.isLt; omega) } } := by
  simp only [setX, Hart.setX, if_neg hr]

theorem getX_setX_self {r : Reg} (hr : r ≠ 0#5) (s : State) (v : Word) :
    getX (setX s r v) r = trunc s.params v := by
  rw [getX_of_ne_zero hr, setX_of_ne_zero hr]
  simp

theorem getX_setX_of_ne {r q : Reg} (hqr : q ≠ r) (s : State) (v : Word) :
    getX (setX s r v) q = getX s q := by
  by_cases hr : r = 0#5
  · rw [hr, setX_zero]
  by_cases hq : q = 0#5
  · rw [hq, getX_zero, getX_zero]
  have hplace : r.toNat - 1 ≠ q.toNat - 1 := by bv_omega
  rw [getX_of_ne_zero hq, getX_of_ne_zero hq, setX_of_ne_zero hr]
  simp [Vector.getElem_set_ne _ _ hplace]

/-- Settles O6: x0, the register written, and any other. -/
theorem registerReadAfterWrite : Obligations.RegisterReadAfterWrite := by
  intro s r q v
  split
  · next hq => rw [hq, getX_zero]
  · next hq =>
    split
    · next hqr => subst hqr; exact getX_setX_self hq s v
    · next hqr => exact getX_setX_of_ne hqr s v

/-! Operands. -/

theorem asidOf_toNat (p : Params) (v : Word) : (asidOf p v).toNat = v.toNat % 2 ^ p.asidlen :=
  lowBits_toNat _ _

theorem asidSel_setX_self {r : Reg} (hr : r ≠ 0#5) (s : State) (v : Word) :
    asidSel r (setX s r v) = some (asidOf s.params (trunc s.params v)) := by
  rw [asidSel_of_ne_zero hr, getX_setX_self hr, setX_params]

/-- Settles O8: the operand's number is a remainder, so it decides the operand. -/
theorem asidOperandIgnoresHighBits : Obligations.AsidOperandIgnoresHighBits := by
  intro s r v v' hr hagree
  rw [asidSel_setX_self hr, asidSel_setX_self hr]
  refine ⟨congrArg some (BitVec.eq_of_toNat_eq ?_), ⟨_, rfl, asidOf_toNat _ _⟩, fun hnone => ?_⟩
  · rw [asidOf_toNat, asidOf_toNat, hagree]
  · rw [asidOf, hnone, lowBits, Nat.pow_zero, Nat.mod_one]

/-! Where SFENCE.VMA executes. -/

/-- The check of the meaning and the condition claims use are one. -/
theorem sfenceIllegal_eq_false_iff (s : State) : sfenceIllegal s = false ↔ sfenceExecutes s := by
  simp only [sfenceIllegal, Bool.or_eq_false_iff, sfenceExecutes]
  apply and_congr
  · cases hpriv : s.hart.priv <;> cases htvm : s.params.hasTVM <;>
      simp [privilegeForbids, tvmBit, hpriv, htvm]
  · cases hsfence : s.params.bareOnlySfence <;> simp [bareOnlyTraps, hsfence]

theorem exec_sfenceVma_of_executes {s : State} (h : sfenceExecutes s) (rs1 rs2 : Reg) :
    exec (.sfenceVma rs1 rs2) s =
      .next (retire (advancePc (recordFence (vaSel rs1 s) (asidSel rs2 s) s))) :=
  exec_sfenceVma_of_legal ((sfenceIllegal_eq_false_iff s).mpr h) rs1 rs2

/-- An operand that is taken and is not a valid address leaves no record. -/
theorem recordFence_invalid {s : State} {v : Word} (h : (paramScheme s.params).validVA v = false)
    (asid : Option Word) : recordFence (some v) asid s = s := by
  simp [recordFence, fenceTakesEffect, h]

theorem recordFence_none (asid : Option Word) (s : State) :
    recordFence none asid s = appendFence s { time := s.now, va := none, asid := asid } := rfl

theorem recordFence_valid {s : State} {v : Word} (h : (paramScheme s.params).validVA v = true)
    (asid : Option Word) :
    recordFence (some v) asid s = appendFence s { time := s.now, va := some v, asid := asid } :=
  if_pos h

/-- Settles O9: without an address operand, with a valid one, and with one that is not. -/
theorem sfenceVmaCompletes : Obligations.SfenceVmaCompletes := by
  intro rs1 rs2 s h
  rw [exec_sfenceVma_of_executes h]
  by_cases hrs1 : rs1 = 0#5
  · subst hrs1
    rw [vaSel_zero, recordFence_none]
    rfl
  · rw [vaSel_of_ne_zero hrs1]
    cases hva : (paramScheme s.params).validVA (getX s rs1) with
    | true =>
      rw [recordFence_valid hva, if_neg (by simp), if_neg hrs1]
      rfl
    | false =>
      rw [recordFence_invalid hva, if_pos ⟨hrs1, rfl⟩, List.append_nil]
      rfl

/-- Settles O10: where it does not execute the check holds. -/
theorem sfenceVmaTrapsOtherwise : Obligations.SfenceVmaTrapsOtherwise := by
  intro rs1 rs2 s h
  rw [← sfenceIllegal_eq_false_iff, Bool.not_eq_false] at h
  exact exec_sfenceVma_of_illegal h rs1 rs2

/-- A fence that names an address subsumes only what covers it. -/
theorem subsumes_outside {sc : Scheme} {f : FenceRec} {o : Observation} {v : Word}
    (hf : f.va = some v) (ho : inRange sc o v = false) : subsumes sc f o = false := by
  unfold subsumes
  rw [hf]
  cases f.asid <;> simp [ho]

/-- Settles O11: no record is appended, and a range of valid addresses does not contain the operand. -/
theorem invalidAddressHasNoEffect : Obligations.InvalidAddressHasNoEffect := by
  intro rs1 rs2 s hrs1 hva
  refine ⟨fun h => ?_, rfl, fun o time asid hvalid => subsumes_outside rfl ?_⟩
  · rw [exec_sfenceVma_of_executes h, vaSel_of_ne_zero hrs1, recordFence_invalid hva]
  · by_contra hin
    rw [Bool.not_eq_false] at hin
    rw [hvalid _ hin] at hva
    cases hva

/-- Settles O13: the next state differs in three fields of the moving hart. -/
theorem sfenceVmaFrame : Obligations.SfenceVmaFrame := by
  intro rs1 rs2 s t e
  obtain ⟨hstate, hhart, -, hlog⟩ := execSfenceVma_hart e
  have hrecord : t.hart.fenceLog = s.hart.fenceLog ∨
      ∃ f, t.hart.fenceLog = s.hart.fenceLog ++ [f] ∧ f.time = s.now :=
    hlog.imp id fun ⟨f, hf, htime, _⟩ => ⟨f, hf, htime⟩
  generalize t.hart = g at hstate hhart hrecord
  subst hstate
  generalize g.pc = pc, g.fenceLog = log at hhart hrecord
  subst hhart
  exact ⟨fun _ => rfl, rfl, rfl, rfl, rfl, fun _ => rfl, rfl, rfl, rfl, rfl, rfl, rfl, rfl, rfl,
    rfl, rfl, rfl, rfl, rfl, rfl, rfl, hrecord, rfl⟩

/-! What a write of a register commutes with. -/

theorem vaSel_setX_of_ne {r rs1 : Reg} (hr : r ≠ rs1) (s : State) (v : Word) :
    vaSel rs1 (setX s r v) = vaSel rs1 s := by
  rw [vaSel, getX_setX_of_ne hr.symm, vaSel]

theorem asidSel_setX_of_ne {r rs2 : Reg} (hr : r ≠ rs2) (s : State) (v : Word) :
    asidSel rs2 (setX s r v) = asidSel rs2 s := by
  rw [asidSel, getX_setX_of_ne hr.symm, setX_params, asidSel]

theorem appendFence_setX (s : State) (r : Reg) (v : Word) (f : FenceRec) :
    appendFence (setX s r v) f = setX (appendFence s f) r v := by
  by_cases hr : r = 0#5
  · rw [hr, setX_zero, setX_zero]
  · rw [setX_of_ne_zero hr, setX_of_ne_zero hr]
    rfl

theorem recordFence_setX (va asid : Option Word) (s : State) (r : Reg) (v : Word) :
    recordFence va asid (setX s r v) = setX (recordFence va asid s) r v := by
  simp only [recordFence, setX_params, setX_now, appendFence_setX]
  split <;> rfl

theorem retire_advancePc_setX (s : State) (r : Reg) (v : Word) :
    retire (advancePc (setX s r v)) = setX (retire (advancePc s)) r v := by
  by_cases hr : r = 0#5
  · rw [hr, setX_zero, setX_zero]
  · rw [setX_of_ne_zero hr, setX_of_ne_zero hr]
    rfl

/-- Settles O14: the check reads no register, the operands are as before, and the record, `pc` and the
counter are written beside the register. -/
theorem onlyNamedRegistersAreRead : Obligations.OnlyNamedRegistersAreRead := by
  intro rs1 rs2 r v s hrs1 hrs2
  cases h : sfenceIllegal s with
  | true =>
    rw [exec_sfenceVma_of_illegal h, exec_sfenceVma_of_illegal (by rwa [sfenceIllegal_setX])]
    exact ⟨fun t ht => by simp at ht, fun f hf => hf⟩
  | false =>
    rw [exec_sfenceVma_of_legal h, exec_sfenceVma_of_legal (by rwa [sfenceIllegal_setX]),
      vaSel_setX_of_ne hrs1, asidSel_setX_of_ne hrs2, recordFence_setX, retire_advancePc_setX]
    exact ⟨fun t ht => by rw [← Host.Outcome.next.inj ht], fun f hf => by simp at hf⟩

/-- A hart that was always Bare and left reset with no observation has none it could use. -/
theorem not_usableAt_of_bare {p : Params} {h : Hart} (hbare : ∀ sn ∈ h.timeline, sn.satp.mode = 0)
    (hinitial : h.initialObs = []) (d : Nat) (o : Observation) (n : Nat) :
    ¬ UsableAt p h d o n := by
  have hlaunch : ∀ o t, ¬ FromLaunch h o t := fun o t ⟨_, hmem, _⟩ => by simp [hinitial] at hmem
  induction d generalizing o n with
  | zero =>
    rintro ⟨t, -, -, ⟨sn, hsn, hmode, -⟩ | hl, -⟩
    · exact hmode (hbare sn (List.mem_of_getElem? hsn))
    · exact hlaunch o t hl
  | succ d ih =>
    rintro ⟨t, -, -, ⟨q, hq, -⟩ | hl, -⟩
    · exact ih q t hq
    · exact hlaunch o t hl

/-- A legal hart whose MODE is read-only zero was always Bare. -/
theorem bare_of_legal {p : Params} {h : Hart} (hlegal : h.legal p = true)
    (hbare : p.satpModeWritable = false) : ∀ sn ∈ h.timeline, sn.satp.mode = 0 := by
  have hsatp : ∀ v, satpLegal p v = true → v.mode = 0 := fun v hv => by
    simp only [satpLegal, hbare, Bool.false_and, Bool.or_false, Bool.and_eq_true,
      decide_eq_true_eq] at hv
    exact hv.1
  simp only [Hart.legal, Bool.and_eq_true, List.all_eq_true] at hlegal
  obtain ⟨⟨⟨⟨⟨hnow, hpast⟩, -⟩, -⟩, -⟩, -⟩ := hlegal
  rw [Hart.timeline, List.forall_mem_append, List.forall_mem_singleton]
  exact ⟨fun sn hsn => hsatp _ (hpast sn hsn), hsatp _ hnow⟩

/-- Settles O15: the parameter is part of the check, and the walks of a hart that was always Bare read
nothing. -/
theorem bareOnlyTrapsOrHasNoEffect : Obligations.BareOnlyTrapsOrHasNoEffect := by
  intro rs1 rs2 s hbare
  refine ⟨fun htrap => ?_, fun hnop hpriv => ?_, fun hlegal hinitial o n u => ?_⟩
  · exact exec_sfenceVma_of_illegal (by simp [sfenceIllegal, bareOnlyTraps, hbare, htrap]) rs1 rs2
  · exact exec_sfenceVma_of_legal (by simp [sfenceIllegal, bareOnlyTraps, hnop, hpriv]) rs1 rs2
  · have hmover := legal_iff.mp hlegal s.hart List.mem_cons_self
    exact not_usableAt_of_bare (bare_of_legal hmover hbare) hinitial _ o n u.2

end Sys2Proof.Machine

/-! PROOF. What a fence orders and invalidates (40_sfence_vma.md sections 2 and 4,
70_reset_and_hazards.md section 3). -/

namespace Sys2Proof.Machine

/-- Where it executes and its address operand is absent or valid, SFENCE.VMA ends the log with one
record of its operands. -/
theorem exec_sfenceVma_record {rs1 : Reg} {s : State} (h : sfenceExecutes s)
    (hva : fenceTakesEffect s.params (vaSel rs1 s) = true) (rs2 : Reg) :
    ∃ t, exec (.sfenceVma rs1 rs2) s = .next t ∧ t.params = s.params ∧
      t.hart.fenceLog = s.hart.fenceLog ++
        [{ time := s.now, va := vaSel rs1 s, asid := asidSel rs2 s }] := by
  refine ⟨_, exec_sfenceVma_of_executes h rs1 rs2, ?_⟩
  rw [recordFence, if_pos hva]
  exact ⟨rfl, rfl⟩

/-- Whatever a fence subsumes and the hart may use at the fence or later, it read from memory, at the
fence or later. -/
theorem Usable.since_fence {p : Params} {h : Hart} {o : Observation} {n : Nat} {f : FenceRec}
    (u : Usable p h o n) (hf : f ∈ h.fenceLog) (hn : f.time ≤ n) (hpos : 0 < f.time)
    (hs : subsumes (paramScheme p) f o = true) : f.time ≤ o.born ∧ heldAt p h o := by
  have hborn := u.fence_le_born hf hn hs
  exact ⟨hborn, u.2.held (hpos.trans_le hborn)⟩

/-- A record that does not subsume an observation does not end its use. -/
theorem unfenced_concat {sc : Scheme} {log : List FenceRec} {f : FenceRec} {o : Observation}
    {n : Nat} (hu : unfenced sc log o n = true) (hs : subsumes sc f o = false) :
    unfenced sc (log ++ [f]) o n = true := by
  rw [unfenced_iff] at hu ⊢
  rw [List.forall_mem_append, List.forall_mem_singleton]
  exact ⟨hu, fun _ _ => hs⟩

/-- What a completed SFENCE.VMA with these operands does: of what its record subsumes only reads of its
moment or later stay usable, and it ends no other use. -/
theorem exec_sfenceVma_covers {rs1 : Reg} {s : State} (h : sfenceExecutes s) (hpos : 0 < s.now)
    (hva : fenceTakesEffect s.params (vaSel rs1 s) = true) (rs2 : Reg) :
    ∃ t, exec (.sfenceVma rs1 rs2) s = .next t ∧ t.params = s.params ∧
      (∀ o n, s.now ≤ n → Usable t.params t.hart o n →
        subsumes (paramScheme s.params)
          { time := s.now, va := vaSel rs1 s, asid := asidSel rs2 s } o = true →
        s.now ≤ o.born ∧ heldAt t.params t.hart o) ∧
      (∀ o, Usable s.params s.hart o s.now →
        subsumes (paramScheme s.params)
          { time := s.now, va := vaSel rs1 s, asid := asidSel rs2 s } o = false →
        unfenced (paramScheme t.params) t.hart.fenceLog o s.now = true) := by
  obtain ⟨t, hexec, hparams, hlog⟩ := exec_sfenceVma_record h hva rs2
  refine ⟨t, hexec, hparams, fun o n hn u hs => ?_, fun o u hs => ?_⟩
  · rw [← hparams] at hs
    exact u.since_fence (by rw [hlog]; exact List.mem_concat_self) hn hpos hs
  · rw [hparams, hlog]
    exact unfenced_concat u.2.unfenced hs

/-- Settles O16: the record without operands subsumes every observation. -/
theorem fullFenceOrdersAndInvalidatesAll : Obligations.FullFenceOrdersAndInvalidatesAll := by
  intro s h hpos
  obtain ⟨t, hexec, -, hcovers, -⟩ := exec_sfenceVma_covers (rs1 := 0#5) h hpos rfl 0#5
  exact ⟨t, hexec, fun o n hn u => hcovers o n hn u rfl⟩

/-- Settles O17: the record names an ASID and no address. -/
theorem asidFenceCoversOneAddressSpace : Obligations.AsidFenceCoversOneAddressSpace := by
  intro rs2 s hrs2 h hpos
  obtain ⟨t, hexec, -, hcovers, hspares⟩ := exec_sfenceVma_covers (rs1 := 0#5) h hpos rfl rs2
  rw [vaSel_zero, asidSel_of_ne_zero hrs2] at hcovers hspares
  refine ⟨t, hexec, fun o n hn u hasid hlocal => hcovers o n hn u ?_, fun o u hother =>
    hspares o u ?_⟩
  · simp [subsumes, hasid, hlocal]
  · rcases hother with hasid | hglobal
    · simp [subsumes, hasid]
    · exact subsumes_global rfl hglobal

/-- Settles O18: the record names an address and no ASID. -/
theorem addressFenceCoversOneMapping : Obligations.AddressFenceCoversOneMapping := by
  intro rs1 s hrs1 h hpos hva
  have hsel := vaSel_of_ne_zero hrs1 s
  obtain ⟨t, hexec, -, hcovers, hspares⟩ :=
    exec_sfenceVma_covers h hpos (by rw [hsel]; exact hva) 0#5
  rw [hsel, asidSel_zero] at hcovers hspares
  refine ⟨t, hexec, fun o n hn u hterminal hin => hcovers o n hn u ?_, fun o u hother =>
    hspares o u ?_⟩
  · simp [subsumes, hterminal, hin]
  · rcases hother with hnonleaf | hout
    · exact subsumes_nonleaf rfl hnonleaf
    · exact subsumes_outside rfl hout

/-- Settles O19: the record names an address and an ASID. -/
theorem addressAsidFenceCoversOneMapping : Obligations.AddressAsidFenceCoversOneMapping := by
  intro rs1 rs2 s hrs1 hrs2 h hpos hva
  have hsel := vaSel_of_ne_zero hrs1 s
  obtain ⟨t, hexec, -, hcovers, hspares⟩ :=
    exec_sfenceVma_covers h hpos (by rw [hsel]; exact hva) rs2
  rw [hsel, asidSel_of_ne_zero hrs2] at hcovers hspares
  refine ⟨t, hexec, fun o n hn u hterminal hin hasid hlocal => hcovers o n hn u ?_,
    fun o u hother => hspares o u ?_⟩
  · simp [subsumes, hterminal, hin, hasid, hlocal]
  · rcases hother with hnonleaf | hglobal | hasid | hout
    · exact subsumes_nonleaf rfl hnonleaf
    · exact subsumes_global rfl hglobal
    · simp [subsumes, hasid]
    · exact subsumes_outside rfl hout

/-- Settles O21: the hart admits as much as it does with the log that fences more. -/
theorem overFencingOnlyRemoves : Obligations.OverFencingOnlyRemoves := by
  intro p h log hmore o n u
  have kept : AdmitsAsMuch p n { h with fenceLog := log } h :=
    ⟨fun _ _ => rfl, List.Subset.refl _, fun o t _ => hmore o t⟩
  exact kept.usable u

/-- Settles O22: a path with a G bit is fenced in every address space, any other in its own. -/
theorem recipeFencesAreSufficient : Obligations.RecipeFencesAreSufficient := by
  intro sc time va asid g o hglobal hasid
  cases g with
  | true => exact ⟨fun ht hin => by simp [subsumes, leafFence, ht, hin], rfl⟩
  | false =>
    have hlocal : o.gpath = false := Bool.eq_false_iff.mpr fun h => nomatch hglobal h
    have hasid : o.asid = asid := hasid.resolve_right nofun
    exact ⟨fun ht hin => by simp [subsumes, leafFence, ht, hin, hasid, hlocal],
      by simp [subsumes, nonleafFence, hasid, hlocal]⟩

/-- Where a usable observation comes from: a root table, a table that a usable entry points to, or the
launch. -/
theorem Usable.origin {p : Params} {h : Hart} {o : Observation} {n : Nat} (u : Usable p h o n) :
    ∃ t, o.born ≤ t ∧ t ≤ n ∧ (FromRoot p h o t ∨
      (∃ q, Usable p h q t ∧ FromParent p h q o t) ∨ FromLaunch h o t) := by
  obtain ⟨hlevel, u⟩ := u
  cases hd : (paramScheme p).levels - 1 - o.level with
  | zero =>
    rw [hd] at u
    obtain ⟨t, hb, ht, hread, -⟩ := u
    exact ⟨t, hb, ht, hread.imp id .inr⟩
  | succ d =>
    rw [hd] at u
    obtain ⟨t, hb, ht, ⟨q, hq, hparent⟩ | hlaunch, -⟩ := u
    · have hql : q.level = o.level + 1 := hparent.2.1
      have hdepth : (paramScheme p).levels - 1 - q.level = d := by omega
      exact ⟨t, hb, ht, .inr (.inl ⟨q, ⟨by omega, hdepth ▸ hq⟩, hparent⟩)⟩
    · exact ⟨t, hb, ht, .inr (.inr hlaunch)⟩

/-- Settles O23: what the fence subsumes was read since, so its tables were those `satp` pointed to
since, or those that entries read since pointed to. -/
theorem recycledAsidReadsTheNewTable : Obligations.RecycledAsidReadsTheNewTable := by
  intro rs2 s new h n o hrs2 hexecutes hpos ⟨t, hexec, later, hlater⟩ hnew hn u hasid hlocal
  obtain ⟨t', hexec', -, hlog⟩ := exec_sfenceVma_record (rs1 := 0#5) hexecutes rfl rs2
  cases hexec.symm.trans hexec'
  have since : ∀ q m, s.now ≤ m → Usable s.params h q m →
      q.asid = asidOf s.params (getX s rs2) → q.gpath = false → s.now ≤ q.born := by
    intro q m hm uq hqasid hqlocal
    refine (uq.since_fence (f := ⟨s.now, none, some (asidOf s.params (getX s rs2))⟩) ?_ hm hpos
      ?_).1
    · rw [hlater, hlog, asidSel_of_ne_zero hrs2]
      exact List.mem_append_left _ List.mem_concat_self
    · simp [subsumes, hqasid, hqlocal]
  have hborn := since o n hn u hasid hlocal
  refine ⟨hborn, ?_⟩
  obtain ⟨m, hbm, hmn, hroot | ⟨q, uq, hparent⟩ | ⟨-, -, hlaunch⟩⟩ := u.origin
  · refine ⟨fun _ => ?_, fun hl => absurd hroot.level_eq hl⟩
    obtain ⟨sn, hsn, -, -, hsatp, hslot, -⟩ := hroot
    rwa [hnew m sn (hborn.trans hbm) hsn (hsatp.symm.trans hasid)] at hslot
  · obtain ⟨hclass, hql, -, hqasid, hslot, hg, -⟩ := hparent
    refine ⟨fun hl => absurd uq.1 (by omega), fun _ => ?_⟩
    have hqa : q.asid = asidOf s.params (getX s rs2) := hqasid.symm.trans hasid
    have hqg : q.gpath = false := by
      rw [hlocal] at hg
      exact (Bool.or_eq_false_iff.mp hg.symm).1
    have hm := hborn.trans hbm
    exact ⟨q, m, hm, hmn, uq, since q m hm uq hqa hqg, hqa, hqg, hql, hclass, hslot⟩
  · omega

end Sys2Proof.Machine

/-! PROOF. What a hart may use, and what a translation makes of it (20_memory.md sections 3, 4
and 7). -/

namespace Sys2Proof.Machine

/-- Settles O25: level by level, the computed list holds what the rules admit. -/
theorem candidatesAreTheAdmitted : Obligations.CandidatesAreTheAdmitted :=
  fun _ _ _ _ _ wf => mem_candidates_iff wf

/-- Settles O27: without initial observations a usable read is of a root table or of a table that a
usable entry points to; and such a read may be made at any time and kept. -/
theorem implicitReadsAreReachable : Obligations.ImplicitReadsAreReachable := by
  intro p h o n
  refine ⟨fun hinitial u => ?_, fun t ht hu hread => ?_⟩
  · obtain ⟨t, -, ht, hroot | ⟨q, uq, hparent⟩ | ⟨-, hmem, -⟩⟩ := u.origin
    · obtain ⟨sn, hsn, hmode, -, -, hslot, -⟩ := hroot
      exact .inl ⟨t, sn, ht, hsn, hmode, hslot⟩
    · obtain ⟨hclass, -, -, -, hslot, -⟩ := hparent
      have hvalid : (paramScheme p).vBit q.pte = true := by
        by_contra hv
        simp [obsClass, hv] at hclass
      exact .inr ⟨t, q, ht, uq, hvalid, hslot⟩
    · simp [hinitial] at hmem
  · rcases hread with hroot | ⟨q, uq, hparent⟩
    · exact usable_of_root hroot.readOK.1 ht hroot hu
    · exact usable_of_parent hparent.readOK.1 ht uq hparent hu

/-! The walk made now. -/

/-- At the last level every entry ends a walk. -/
theorem terminal_of_last {sc : Scheme} (wf : sc.Wf) {o : Observation} (hl : o.level = 0) :
    terminal sc o = true := by
  cases hv : sc.vBit o.pte with
  | true => simp [terminal, obsClass, hl, wf.leaf_last o.pte hv, hv]
  | false => simp [terminal, obsClass, hv]

/-- In a well-formed scheme a walk ends, in a terminal read of the present that covers the address. -/
theorem exists_walkNow {p : Params} (wf : (paramScheme p).Wf) (h : Hart) (va : Word) (now : Nat)
    (asid : Word) (l table : Nat) (g : Bool) :
    ∃ o, walkNow p h va now asid (l + 1) table g = some o ∧ o.born = now ∧ o.asid = asid ∧
      terminal (paramScheme p) o = true ∧ inRange (paramScheme p) o va = true := by
  have ends : ∀ l table g,
      terminal (paramScheme p) (walkRead p h.mem va now asid l table g) = true →
      ∃ o, walkNow p h va now asid (l + 1) table g = some o ∧ o.born = now ∧ o.asid = asid ∧
        terminal (paramScheme p) o = true ∧ inRange (paramScheme p) o va = true := by
    intro l table g ht
    exact ⟨_, by rw [walkNow_succ, if_pos ht], rfl, rfl, ht,
      inRange_spanBase (wf.span_pos _) rfl⟩
  induction l generalizing table g with
  | zero => exact ends 0 table g (terminal_of_last wf rfl)
  | succ l ih =>
    by_cases ht : terminal (paramScheme p) (walkRead p h.mem va now asid (l + 1) table g) = true
    · exact ends (l + 1) table g ht
    · rw [walkNow_succ, if_neg ht]
      exact ih _ _

/-- In a timed history the last snapshot is the present. -/
theorem Hart.timeline_now {now : Nat} {h : Hart} (ht : h.timed now = true) :
    h.timeline[now]? = some h.snap := by
  rw [← (Hart.timed_iff.mp ht).1, Hart.timeline]
  exact List.getElem?_concat_length

/-- What the newest walk finds is a candidate. -/
theorem newestWalk_candidate {p : Params} {h : Hart} {va : Word} {now : Nat}
    (wf : (paramScheme p).Wf) (ht : h.timed now = true) (hmode : h.satp.mode ≠ 0)
    (hva : (paramScheme p).validVA va = true) :
    ∃ o, newestWalk p h va now = some o ∧ o.born = now ∧ Candidate p h va now o := by
  obtain ⟨l, hl⟩ := Nat.exists_eq_succ_of_ne_zero wf.levels_pos.ne'
  obtain ⟨o, hwalk, hborn, hasid, hterminal, hin⟩ :=
    exists_walkNow wf h va now h.satp.asid l ((paramScheme p).rootAddr h.satp) false
  have hnewest : newestWalk p h va now = some o := by rw [newestWalk, hl]; exact hwalk
  have hu := usable_newestWalk wf hva (Hart.timeline_now ht) hmode le_rfl hnewest
    (hborn ▸ unfenced_born _ _ _)
  exact ⟨o, hnewest, hborn, hu, hterminal, hin, .inl hasid⟩

/-! The choice, and what it gives. -/

/-- From a list that is not empty every number picks a member. -/
theorem pickFrom_of_ne_nil {l : List Observation} (hl : l ≠ []) (choice : Nat) :
    ∃ o ∈ l, pickFrom l choice = some o := by
  have hlt := Nat.mod_lt choice (List.length_pos_of_ne_nil hl)
  exact ⟨_, List.getElem_mem hlt, List.getElem?_eq_getElem hlt⟩

/-- Settles O30: every number picks some candidate, and every candidate is picked by some number. -/
theorem theChoiceIsFreeAmongCandidates : Obligations.TheChoiceIsFreeAmongCandidates := by
  intro s acc va hactive hendian hva
  refine ⟨fun o ho => ?_, fun choice => ?_⟩
  · obtain ⟨choice, hpick⟩ := exists_pickFrom ho
    exact ⟨choice, translateWith_of_pick hactive hendian hva hpick⟩
  · by_cases hnil : candidatesNow s va = []
    · exact .inr ⟨hnil, by simp [translateWith, hactive, hendian, hva, hnil, pickFrom]⟩
    · obtain ⟨o, ho, hpick⟩ := pickFrom_of_ne_nil hnil choice
      exact .inl ⟨o, ho, translateWith_of_pick hactive hendian hva hpick⟩

theorem useObservation_ne_noTranslation (acc : Access) (va : Word) (o : Observation) (s : State) :
    useObservation acc va o s ≠ .error (.fault (.noTranslation va)) := by
  unfold useObservation
  split <;> simp [raise]

/-- A translation stops for want of an observation only when there is no candidate. -/
theorem translateWith_ne_noTranslation {s : State} {va : Word} (hsome : candidatesNow s va ≠ [])
    (choice : Nat) (acc : Access) :
    translateWith choice acc va s ≠ .error (.fault (.noTranslation va)) := by
  obtain ⟨o, -, hpick⟩ := pickFrom_of_ne_nil hsome choice
  simp only [translateWith, hpick]
  split
  · simp
  · split
    · simp
    · split
      · simp [raise]
      · exact useObservation_ne_noTranslation acc va o _

/-- Settles O26: the newest walk ends in a candidate, so there is one. -/
theorem newestWalkIsACandidate : Obligations.NewestWalkIsACandidate := by
  intro s va wf ht hmode hva
  obtain ⟨o, hwalk, hborn, hcandidate⟩ :=
    newestWalk_candidate wf (timed_iff.mp ht s.hart List.mem_cons_self) hmode hva
  have hmem : o ∈ candidatesNow s va := (mem_candidates_iff wf).mpr hcandidate
  exact ⟨⟨o, hwalk, hborn, hmem⟩,
    translateWith_ne_noTranslation (List.ne_nil_of_mem hmem)⟩

/-- A terminal observation that lets the access through is a leaf whose permissions allow it. -/
theorem leaf_of_permits {s : State} {acc : Access} {o : Observation}
    (hterminal : terminal (paramScheme s.params) o = true) (hpermits : permits s acc o = true) :
    obsClass (paramScheme s.params) o = .leaf ∧
      (paramScheme s.params).check (checkedPte s.params acc o) acc s.hart.priv
        s.hart.sstatus.sum s.hart.sstatus.mxr = true := by
  simp only [permits, terminal, Bool.and_eq_true, decide_eq_true_eq] at hpermits hterminal
  refine ⟨?_, hpermits.2⟩
  cases hclass : obsClass (paramScheme s.params) o with
  | leaf => rfl
  | nonleaf => exact absurd hclass hterminal
  | invalid => exact absurd hclass hpermits.1

/-- Settles O51: what is picked is terminal and admitted, and what permits the access is no invalid
entry. -/
theorem aTranslationIsAnAdmittedOne : Obligations.ATranslationIsAnAdmittedOne := by
  intro choice acc va s wf
  refine ⟨fun pa t e => ?_, fun hactive hendian hva => ?_⟩
  · rcases translateWith_ok e with ⟨hinactive, hpa, ht⟩ | ⟨hactive, o, ho, hpermits, hpa, ht⟩
    · exact ⟨fun _ => ⟨hpa, ht⟩, fun hactive => by simp [hinactive] at hactive⟩
    · refine ⟨fun hinactive => by simp [hactive] at hinactive, fun _ => ?_⟩
      have hcandidate := (mem_candidates_iff wf).mp ho
      obtain ⟨-, hterminal, -⟩ := hcandidate
      obtain ⟨hleaf, hcheck⟩ := leaf_of_permits hterminal hpermits
      exact ⟨o, (mem_candidates_iff wf).mp ho, hleaf, hcheck, hpa, ht⟩
  · simp [translateWith, hactive, hendian, hva, raise]

/-- What an implicit write does: nothing, or, where PTEs are updated and the slot is in `PAddr` and
still holds the observed PTE, the store of the updated one. -/
theorem implicitWrite_cases (acc : Access) (o : Observation) (s : State) :
    implicitWrite acc o s = s ∨
      (s.params.implicitWrites = .updatePte ∧
        inPAddr s.params o.slot (paramScheme s.params).pteSize = true ∧
        valIn s.params s.hart.mem o.slot s.now = o.pte ∧
        implicitWrite acc o s = memWrite s o.slot (paramScheme s.params).pteSize
          ((paramScheme s.params).implicitUpdate o.pte acc)) := by
  cases hw : s.params.implicitWrites with
  | absent => exact .inl (by simp [implicitWrite, hw])
  | updatePte =>
    simp only [implicitWrite, hw]
    split
    · next h => exact .inr ⟨trivial, h.1, h.2.1, rfl⟩
    · exact .inl rfl

theorem memWf_mem {s : State} (h : s.memWf = true) : s.hart.mem.wf = true := by
  have hmover := memWf_iff.mp h s.hart List.mem_cons_self
  simp only [Hart.memWf, Bool.and_eq_true] at hmover
  exact hmover.1

/-- Outside the bytes of a store memory reads as before. -/
theorem memWrite_read_outside {s : State} (h : s.hart.mem.wf = true) {pa n a : Nat} (v : Nat)
    (ha : a < pa ∨ pa + n ≤ a) : (memWrite s pa n v).hart.mem.read a = s.hart.mem.read a := by
  rw [memWrite_hart_mem, Memory.read_writeBytes_outside h (by rwa [leBytes_length])]

/-- Inside them it reads as the store's bytes. -/
theorem memWrite_read_inside {s : State} (h : s.hart.mem.wf = true) (pa : Nat) {n k : Nat} (v : Nat)
    (hk : k < n) : some ((memWrite s pa n v).hart.mem.read (pa + k)) = (leBytes n v)[k]? := by
  rw [memWrite_hart_mem, Memory.read_writeBytes_inside h (by rwa [leBytes_length])]

/-- Settles O52: the frame of what only makes implicit references, and the one store an implicit write
can be. -/
theorem implicitWritesAreTheParameters : Obligations.ImplicitWritesAreTheParameters := by
  intro choice acc va s t pa hwf e
  have hmem := memWf_mem hwf
  have r := translateWith_readsOnly e
  refine ⟨fun habsent => ?_, ?_, r.hart, r.others, r.params, r.now, r.agenda, r.ipis⟩
  · rcases translateWith_ok e with ⟨-, -, rfl⟩ | ⟨-, o, -, -, -, rfl⟩
    · exact ⟨rfl, rfl, rfl⟩
    · simp [implicitWrite, habsent]
  · rcases translateWith_ok e with ⟨-, -, rfl⟩ | ⟨-, o, ho, -, hpa, rfl⟩
    · exact .inl fun _ => rfl
    · rcases implicitWrite_cases acc o { s with draws := s.draws + 1 } with
        hw | ⟨hupdate, hslot, hval, hw⟩
      · exact .inl fun _ => by rw [hw]
      · rw [hw]
        exact .inr ⟨o, ho, hpa, hupdate, hslot, hval,
          fun a ha => memWrite_read_outside hmem _ ha,
          fun k hk => memWrite_read_inside hmem _ _ hk⟩

/-! Control registers. -/

section
variable {p : Params} {g h : Hart} (htimeline : g.timeline = h.timeline)
  (hlog : g.fenceLog = h.fenceLog) (hinitial : g.initialObs = h.initialObs)
include htimeline hlog hinitial

/-- The list of usable observations is computed from the history, the log and the initial
observations. -/
theorem usableList_congr (va : Word) (d n : Nat) :
    usableList p g va d n = usableList p h va d n := by
  have hreads : readsOf p g va = readsOf p h va := by
    funext l table asid gp t
    simp only [readsOf, htimeline]
  induction d generalizing n with
  | zero =>
    have hroot : rootReads p g va = rootReads p h va := by
      funext t
      simp only [rootReads, htimeline, hreads]
    simp only [usableList, hroot, launchReads, hinitial, hlog]
  | succ d ih =>
    simp only [usableList, ih, stepReads, hreads, launchReads, hinitial, hlog]

theorem candidates_congr (hasid : g.satp.asid = h.satp.asid) (va : Word) (n : Nat) :
    candidates p g va n = candidates p h va n := by
  simp only [candidates, usableList_congr htimeline hlog hinitial, hasid]

end

/-- Settles O32: the check is the only part of a translation that reads SUM and MXR. -/
theorem sumAndMxrTakeEffectAtOnce : Obligations.SumAndMxrTakeEffectAtOnce := by
  intro s sum mxr acc va o
  refine ⟨rfl, ?_, rfl⟩
  exact candidates_congr (g := (envWriteSstatus sum mxr s).hart) (h := s.hart) rfl rfl rfl rfl _ _

theorem satpWritable_eq_true_iff (s : State) :
    satpWritable s = true ↔ s.hart.priv = .M ∨ (s.hart.priv = .S ∧ tvmBit s = false) := by
  cases hpriv : s.hart.priv <;> simp [satpWritable, hpriv]

theorem satpWritable_eq_false_iff (s : State) :
    satpWritable s = false ↔ s.hart.priv = .U ∨ (s.hart.priv = .S ∧ tvmBit s = true) := by
  cases hpriv : s.hart.priv <;> simp [satpWritable, hpriv]

@[simp] theorem satpWritable_tick (s : State) : satpWritable (tick s) = satpWritable s := rfl

/-- By the standard rule accesses are translated outside M-mode and Bare. -/
theorem translationActive_standard {s : State} (h : s.params.activeRule = .standard) :
    translationActive s = true ↔ s.hart.satp.mode ≠ 0 ∧ s.hart.priv ≠ .M := by
  simp only [translationActive, h, Bool.and_eq_true, decide_eq_true_eq]

/-- A candidate is of the present address space or global. -/
theorem asid_of_mem_candidates {p : Params} {h : Hart} {va : Word} {n : Nat} {o : Observation}
    (ho : o ∈ candidates p h va n) : o.asid = h.satp.asid ∨ o.gpath = true := by
  simp only [candidates, List.mem_filter, Bool.and_eq_true, Bool.or_eq_true,
    decide_eq_true_eq] at ho
  exact ho.2.2

/-- Settles O31: the register is written and nothing else, and the three refusals are the three tests
of the write. -/
theorem satpWriteTakesEffectAtOnce : Obligations.SatpWriteTakesEffectAtOnce := by
  intro s t v
  refine ⟨fun e => ?_, fun hpriv hmode => ?_, fun hpriv => ?_, fun hpriv hold hnew hne => ?_⟩
  · have heffects := envWriteSatp_effects e
    obtain ⟨rfl, -⟩ := envWriteSatp_ok e
    exact ⟨rfl, fun hrule => translationActive_standard (by exact hrule),
      fun va o ho => asid_of_mem_candidates ho, rfl, fun ht o u => heffects.usable_tick ht u⟩
  · have hw := (satpWritable_eq_true_iff s).mpr hpriv
    have hchange : ¬ (s.hart.satp.mode ≠ 0 ∧ (legalSatp s.params v).mode ≠ 0 ∧
        (legalSatp s.params v).mode ≠ s.hart.satp.mode) := by omega
    have hknown : ¬ ((legalSatp s.params v).mode ≠ 0 ∧
        (legalSatp s.params v).mode ≠ (paramScheme s.params).modeNum) := by omega
    exact (if_neg (by simp [hw])).trans ((if_neg hchange).trans (if_neg hknown))
  · have hw := (satpWritable_eq_false_iff s).mpr hpriv
    simp [envWriteSatp, hw]
  · have hw := (satpWritable_eq_true_iff s).mpr hpriv
    simp [envWriteSatp, hw, hold, hnew, hne]

end Sys2Proof.Machine

/-! PROOF. Loads and stores, stores in flight, and data fences (20_memory.md sections 1, 4 and 5). -/

namespace Sys2Proof.Machine

/-- Settles O38: the address written, and any other. -/
theorem memoryReadAfterWrite : Obligations.MemoryReadAfterWrite := by
  intro m a b v hm
  split
  · next hab => rw [hab, Memory.read_write_self hm]
  · next hab => exact Memory.read_write_other hab hm

/-- The stores that a store puts in flight are its hart's. -/
theorem memWrite_inFlight (s : State) (pa n v : Nat) :
    ∃ new, (memWrite s pa n v).inFlight = s.inFlight ++ new ∧ ∀ q ∈ new, q.src = s.hart.id := by
  refine ⟨_, rfl, fun q hq => ?_⟩
  obtain ⟨g, -, hq⟩ := List.mem_flatMap.mp hq
  obtain ⟨piece, -, rfl⟩ := List.mem_map.mp hq
  rfl

/-- Settles O39: the store itself, and the translation before it. -/
theorem storeFrame : Obligations.StoreFrame := by
  intro s n v hwf
  have hmem := memWf_mem hwf
  refine ⟨fun pa => ?_, fun va t e => ?_, fun va pa s1 hendian htranslate hpa => ?_⟩
  · exact ⟨fun a => memWrite_read_outside hmem v, fun k => memWrite_read_inside hmem pa v, rfl, rfl,
      memWrite_inFlight s pa n v⟩
  · obtain ⟨pa, s1, htranslate, hpa, rfl⟩ := envStore_ok e
    have r := translate_readsOnly htranslate
    have hmem1 := r.memWf hmem
    have hhart : (memWrite s1 pa n v).hart =
        { s1.hart with mem := (memWrite s1 pa n v).hart.mem } := rfl
    refine ⟨pa, s1, htranslate, hpa, fun a => memWrite_read_outside hmem1 v, fun habsent => ?_,
      fun k => memWrite_read_inside hmem1 pa v, by rw [hhart, r.hart], r.others, r.params, r.now,
      r.agenda, r.ipis, rfl, rfl⟩
    obtain ⟨hsame, -⟩ := implicitWritesAreTheParameters _ _ _ _ _ _ hwf htranslate
    rw [(hsame habsent).1]
  · simp [envStore, hendian, htranslate, hpa]

/-- Settles O54: the value's bytes are those of memory at the translated address. -/
theorem aLoadReadsTheTranslatedAddress : Obligations.ALoadReadsTheTranslatedAddress := by
  intro s va n
  refine ⟨fun t e => ?_, fun pa s1 hendian htranslate hpa => ?_⟩
  · obtain ⟨pa, s1, htranslate, hpa, rfl⟩ := envLoad_ok e
    exact ⟨pa, s1, _, htranslate, hpa, rfl, Memory.readLE_lt _ _ _,
      fun k hk => Memory.readLE_byte _ hk, rfl⟩
  · simp [envLoad, hendian, htranslate, hpa]

/-! Stores in flight. -/

/-- What a byte reads as after a store became visible. -/
theorem see_read {h : Hart} (hm : h.mem.wf = true) (q : Pending) (a : Nat) :
    (h.see q.pa (q.bytes.map PendingByte.val)).mem.read a =
      if q.pa ≤ a then ((q.bytes[a - q.pa]?).map PendingByte.val).getD (h.mem.read a)
      else h.mem.read a := by
  rw [Hart.see_mem, Memory.read_writeBytes hm, List.getElem?_map]

/-- Seeing a store changes nothing of the stores in flight but what is owed. -/
theorem markSeen_vals (q : Pending) (k : Nat) (l : List Pending) :
    (markSeen q k l).map (fun r => (r.src, r.dst, r.pa, r.bytes.map PendingByte.val)) =
      l.map (fun r => (r.src, r.dst, r.pa, r.bytes.map PendingByte.val)) := by
  simp only [markSeen, List.map_append, List.map_map, Function.comp_def, Pending.mark_src,
    Pending.mark_dst, Pending.mark_pa, Pending.mark_vals]
  rw [← List.map_append, List.take_append_drop]

theorem envObserve_of_dst {s : State} {k : Nat} {q : Pending} (hq : s.inFlight[k]? = some q)
    (hdst : q.dst = s.hart.id) :
    envObserve k s = .ok { s with
      hart := s.hart.see q.pa (q.bytes.map PendingByte.val)
      inFlight := markSeen q k s.inFlight } := by
  simp only [envObserve, hq, if_pos hdst]

/-- Settles O56: the bytes seen are the store's, and marking changes what is owed and nothing else. -/
theorem anyStoreInFlightMayBeSeen : Obligations.AnyStoreInFlightMayBeSeen := by
  intro s k hwf
  refine ⟨fun q hq hdst => ?_, fun hnone => ?_⟩
  · exact ⟨_, envObserve_of_dst hq hdst, see_read (memWf_mem hwf) q, rfl, markSeen_vals q k _⟩
  · cases hq : s.inFlight[k]? with
    | none => simp only [envObserve, hq]
    | some q => simp only [envObserve, hq, if_neg (hnone q hq)]

/-- The newest byte is a later store's, where one has the address. -/
theorem newestByte_append (src dst a : Nat) (l m : List Pending) :
    newestByte src dst a (l ++ m) = (newestByte src dst a m).or (newestByte src dst a l) := by
  simp only [newestByte, List.filterMap_append, List.getLast?_append, Option.map_or]

/-- A store that covers the address has a byte for it. -/
theorem Pending.exists_byte_of_covers {q : Pending} {a : Nat} (h : q.covers a = true) :
    q.pa ≤ a ∧ ∃ b, q.bytes[a - q.pa]? = some b := by
  simp only [Pending.covers, Bool.and_eq_true, decide_eq_true_eq] at h
  exact ⟨h.1, _, List.getElem?_eq_getElem (by omega)⟩

theorem Pending.byteFor_of_covers {q : Pending} {a : Nat} (h : q.covers a = true) :
    q.byteFor q.src q.dst a = q.bytes[a - q.pa]? :=
  if_pos ⟨rfl, rfl, (Pending.exists_byte_of_covers h).1⟩

/-- Where a store covers the address, the newest byte for it is a later store's, or else its own. -/
theorem newestByte_of_covers {l : List Pending} {k : Nat} {q : Pending} (hq : l[k]? = some q)
    {a : Nat} (h : q.covers a = true) :
    newestByte q.src q.dst a l = (newestByte q.src q.dst a (l.drop (k + 1))).or
      ((q.bytes[a - q.pa]?).map PendingByte.val) := by
  obtain ⟨hpa, b, hb⟩ := Pending.exists_byte_of_covers h
  have htake : l.take (k + 1) = l.take k ++ [q] := by rw [List.take_add_one, hq]; rfl
  conv_lhs => rw [← List.take_append_drop (k + 1) l, htake]
  rw [newestByte_append, newestByte_append]
  have hown : newestByte q.src q.dst a [q] = some b.val := by
    simp [newestByte, Pending.byteFor_of_covers h, hb]
  rw [hown, hb]
  rfl

/-- A hart that sees a store will, after a fence of its hart, see the newest byte in each address the
store covers, and every other byte as it would have. -/
theorem settledByte_observe {s t : State} {k : Nat} {q : Pending} (hm : s.hart.mem.wf = true)
    (e : envObserve k s = .ok t) (hq : s.inFlight[k]? = some q) (a : Nat) :
    if q.covers a = true then
      some (settledByte t q.src t.hart a) = newestByte q.src q.dst a s.inFlight
    else ∀ src, settledByte t src t.hart a = settledByte s src s.hart a := by
  obtain ⟨q', hq', hdst, rfl⟩ := envObserve_ok e
  cases hq.symm.trans hq'
  simp only [settledByte, Hart.see_id, see_read hm]
  split
  · next hcovers =>
    obtain ⟨hpa, b, hb⟩ := Pending.exists_byte_of_covers hcovers
    rw [← hdst, owedByte_markSeen_covered hcovers, newestByte_of_covers hq hcovers, if_pos hpa, hb]
    cases newestByte q.src q.dst a (s.inFlight.drop (k + 1)) <;> rfl
  · next hcovers =>
    intro src
    rw [owedByte_markSeen_other (by tauto)]
    split
    · next hpa =>
      have hnone : q.bytes[a - q.pa]? = none := by
        simp only [Pending.covers, Bool.and_eq_true, decide_eq_true_eq] at hcovers
        exact List.getElem?_eq_none (by omega)
      rw [hnone]
      rfl
    · rfl

/-- The bytes of a store read back, after a data fence, in every other hart's view. -/
theorem settledByte_memWrite (s : State) (pa n v : Nat) {g : Hart} (hg : g ∈ s.others) {k : Nat}
    (hk : k < n) :
    some (settledByte (memWrite s pa n v) s.hart.id g (pa + k)) = (leBytes n v)[k]? := by
  obtain ⟨b, hb⟩ : ∃ b, (leBytes n v)[k]? = some b :=
    ⟨_, List.getElem?_eq_getElem (by rwa [leBytes_length])⟩
  rw [settledByte, (memWrite_newest s pa n v hg hk).2, hb]
  rfl

/-- Settles O36: the fence delivers the newest owed byte, and a store owes all of its bytes. -/
theorem dataFencePublishesStores : Obligations.DataFencePublishesStores := by
  intro s hwf
  have hothers : ∀ g ∈ s.others, g.mem.wf = true := by
    intro g hg
    have hg := memWf_iff.mp hwf g (List.mem_cons_of_mem _ hg)
    simp only [Hart.memWf, Bool.and_eq_true] at hg
    exact hg.1
  have delivers : ∀ (s' : State) (g : Hart), g.mem.wf = true → ∀ a,
      (seeFrom s'.hart.id g s'.inFlight).mem.read a = settledByte s' s'.hart.id g a :=
    fun s' g hg a => seeFrom_read _ _ _ _ hg
  refine ⟨fun k g hg => ?_, by simp [envDataFence], fun q => by simp [envDataFence],
    fun pa n v g hg k hk => ?_, fun k t q e hq => ?_, fun pa n v g hg k hk => ?_⟩
  · refine ⟨seeFrom s.hart.id g s.inFlight, ?_, seeFrom_hart _ _ _,
      delivers s g (hothers g (List.mem_of_getElem? hg))⟩
    simp [envDataFence, hg]
  · exact ⟨settledByte_memWrite s pa n v hg hk, (memWrite_newest s pa n v hg hk).1⟩
  · refine ⟨fun src dst a => ?_, settledByte_observe (memWf_mem hwf) e hq⟩
    obtain ⟨q', -, -, rfl⟩ := envObserve_ok e
    exact newestByte_markSeen q' k _ src dst a
  · obtain ⟨g', hg', rfl⟩ := List.mem_map.mp hg
    rw [← settledByte_memWrite s pa n v hg' hk]
    exact congrArg some (delivers (memWrite s pa n v) g' (hothers g' hg') _)

end Sys2Proof.Machine

/-! PROOF. What a turn runs, and what it leaves of the counters and the interrupts
(10_state.md section 7, 60_exceptions.md sections 5 and 8). -/

namespace Sys2Proof.Machine

/-! The word a step runs. -/

/-- A step runs what its turn says. -/
theorem step_of_instr {s s1 s2 : State} {i : Instr} (hturn : nextTurn s = .ok (none, s1))
    (hfetch : fetchInstr s1 = .ok (i, s2)) : step s = exec i s2 := by
  simp only [step, hturn, hfetch]

theorem step_of_env {s s1 : State} {a : EnvAct} (hturn : nextTurn s = .ok (some a, s1)) :
    step s = outcomeOf (envAct a s1) := by
  simp only [step, hturn]

theorem fetchInstr_of_decode {s s' : State} {w : BitVec 32} {i : Instr} {rest : List Byte}
    (hfetch : fetch s = .ok (w, s')) (hdecode : decodeBytes (bytesOfWord w) = .ok (i, rest)) :
    fetchInstr s = .ok (i, s') := by
  simp only [fetchInstr, hfetch, hdecode]

/-- Settles O40: the fetch of the turn gives the decoded instruction. -/
theorem aStepRunsTheDecodedInstruction : Obligations.AStepRunsTheDecodedInstruction :=
  fun _ _ _ _ _ _ hturn hfetch hdecode =>
    step_of_instr hturn (fetchInstr_of_decode hfetch hdecode)

/-- The turn of an environment action that a step took: the hart it names is there and moves. -/
theorem nextTurn_env {s s1 : State} {id : Nat} {a : EnvAct} {rest : List Turn}
    (h : s.agenda = .env id a :: rest) (hswitch : switchTo id { s with agenda := rest } = .ok s1) :
    nextTurn s = .ok (some a, tick s1) := by
  simp only [nextTurn, h, hswitch]

/-- Settles O42: the turn is the action, after the switch to the hart it names. -/
theorem aStepPerformsTheEnvironmentAction : Obligations.AStepPerformsTheEnvironmentAction :=
  fun _ _ _ _ _ h hswitch => step_of_env (nextTurn_env h hswitch)

/-- The number of four bytes is their word's. -/
theorem readLE_four (m : Memory) (a : Nat) :
    BitVec.ofNat 32 (m.readLE a 4) =
      wordOfBytes (m.read a) (m.read (a + 1)) (m.read (a + 2)) (m.read (a + 3)) := by
  have h0 := (m.read a).isLt
  have h1 := (m.read (a + 1)).isLt
  have h2 := (m.read (a + 2)).isLt
  have h3 := (m.read (a + 3)).isLt
  have hread : m.readLE a 4 = (m.read a).toNat + 256 * ((m.read (a + 1)).toNat +
      256 * ((m.read (a + 2)).toNat + 256 * ((m.read (a + 3)).toNat + 256 * 0))) := rfl
  apply BitVec.eq_of_toNat_eq
  simp only [wordOfBytes, BitVec.toNat_append, BitVec.toNat_ofNat, hread]
  rw [← Nat.shiftLeft_add_eq_or_of_lt (by omega), ← Nat.shiftLeft_add_eq_or_of_lt (by omega),
    ← Nat.shiftLeft_add_eq_or_of_lt (by omega)]
  simp only [Nat.shiftLeft_eq]
  omega

/-- An untranslated fetch at an aligned `pc` gives the four bytes that stand there. -/
theorem fetch_untranslated {s : State} (hactive : translationActive s = false)
    (halign : (getPc s).toNat % 4 = 0) (hpa : inPAddr s.params (getPc s).toNat 4 = true)
    (hstored : storedTo s (getPc s).toNat 4 = false) :
    fetch s = .ok (BitVec.ofNat 32 (s.hart.mem.readLE (getPc s).toNat 4), s) := by
  have hbytes : fetchBytes (getPc s) 4 s = .ok (memRead s (getPc s).toNat 4, s) := by
    simp [fetchBytes, translate, translateWith, hactive, hpa, hstored]
  simp only [fetch, if_pos halign, hbytes]
  rfl

/-- Settles O41: the fetch reads the four bytes, and they decode to the instruction they encode. -/
theorem aStepRunsTheBytesAtPc : Obligations.AStepRunsTheBytesAtPc := by
  intro s i hagenda hactive halign hpa hstored hbytes
  have hfetch := fetch_untranslated (s := tick s) hactive halign hpa hstored
  refine step_of_instr (nextTurn_nil hagenda) (fetchInstr_of_decode (rest := []) hfetch ?_)
  rw [decodeBytesInvertsEncodeBytes, readLE_four, bytesOfWord_wordOfBytes, List.append_nil]
  simp only [encodeBytes, bytesOfWord, List.cons.injEq, and_true]
  exact ⟨Option.some.inj (hbytes 0 (by decide)), Option.some.inj (hbytes 1 (by decide)),
    Option.some.inj (hbytes 2 (by decide)), Option.some.inj (hbytes 3 (by decide))⟩

/-! Counters and interrupts. -/

theorem nextTurn_env_ok {s s' : State} {x : Option EnvAct} {id : Nat} {a : EnvAct}
    {rest : List Turn} (h : s.agenda = .env id a :: rest) (e : nextTurn s = .ok (x, s')) :
    x = some a ∧ s'.hart.id = id := by
  simp only [nextTurn, h] at e
  split at e
  · next s1 h1 =>
    cases e
    exact ⟨rfl, (switchTo_ok h1).1⟩
  · cases e


/-- What a step that takes such a turn did: the action, on the hart it names. -/
theorem step_env {s t : State} {id : Nat} {a : EnvAct} {rest : List Turn}
    (h : s.agenda = .env id a :: rest) (e : step s = .next t) :
    ∃ u : State, u.hart ∈ s.harts ∧ u.hart.id = id ∧ u.ipis = s.ipis ∧
      envAct a (tick u) = .ok t := by
  obtain ⟨x, s1, hturn, hact⟩ := step_next e
  obtain ⟨u, hperm, rfl, hu⟩ := nextTurn_ok hturn
  obtain ⟨rfl, hid⟩ := nextTurn_env_ok h hturn
  exact ⟨u, hperm.mem_iff.mp List.mem_cons_self, hid, by rw [hu], hact⟩

/-- A turn that is not an environment action is an instruction's. -/
theorem nextTurn_none {s s' : State} {x : Option EnvAct}
    (h : s.agenda = [] ∨ ∃ id rest, s.agenda = .instr id :: rest)
    (e : nextTurn s = .ok (x, s')) : x = none := by
  rcases h with h | ⟨id, rest, h⟩
  · rw [nextTurn_nil h] at e
    cases e
    rfl
  · obtain ⟨s1, -, hturn⟩ := nextTurn_instr h e
    rw [hturn] at e
    cases e
    rfl

/-- What a step that takes such a turn did to the counter and the interrupts. -/
theorem step_instr {s t : State} (h : s.agenda = [] ∨ ∃ id rest, s.agenda = .instr id :: rest)
    (e : step s = .next t) :
    (∃ g ∈ s.harts, g.id = t.hart.id ∧ t.hart.instret = g.instret + 1#64) ∧ t.ipis = s.ipis := by
  obtain ⟨x, s1, hturn, hact⟩ := step_next e
  obtain ⟨u, hperm, rfl, hu⟩ := nextTurn_ok hturn
  obtain rfl := nextTurn_none h hturn
  obtain ⟨⟨rs1, rs2⟩, s2, hfetch, hexec⟩ := hact
  have r := fetchInstr_readsOnly hfetch
  obtain ⟨hstate, hhart, -, -⟩ := execSfenceVma_hart hexec
  refine ⟨⟨u.hart, hperm.mem_iff.mp List.mem_cons_self, ?_, ?_⟩, ?_⟩
  · rw [hhart, r.hart]; rfl
  · rw [hhart, r.hart]; rfl
  · rw [hstate]
    exact r.ipis.trans (by rw [hu]; rfl)

/-- Settles O55: an instruction counts, of the environment actions only `retire`, and no step moves the
counter of a hart that does not move. -/
theorem everyInstructionIsCounted : Obligations.EveryInstructionIsCounted := by
  intro s t e
  refine ⟨fun h => (step_instr h e).1, fun id a rest h => ?_, fun g hg => ?_⟩
  · obtain ⟨u, hmem, hid, -, hact⟩ := step_env h e
    have hsame : t.hart.id = u.hart.id := (envAct_effects hact).id
    exact ⟨u.hart, hmem, hsame.symm, hsame.trans hid, (envAct_counters hact).2⟩
  · obtain ⟨u, e⟩ := step_effects e
    obtain ⟨g', hg', hhart, -⟩ := e.other hg
    exact ⟨g', hg', by rw [hhart]; exact ⟨rfl, rfl⟩⟩

/-- Settles O53: of the moving hart only `setTvm` in M-mode writes `mstatus`, and a step writes no
control register of another hart. -/
theorem tvmIsWrittenInMachineModeOnly : Obligations.TvmIsWrittenInMachineModeOnly := by
  refine ⟨fun s v h => if_neg h, fun s v h => ⟨_, if_pos h, rfl, rfl⟩, fun s t e => ?_⟩
  obtain ⟨u, e⟩ := step_effects e
  rw [forall_mem_harts]
  refine ⟨⟨u.hart, e.mover_mem, e.id.symm, e.mstatus⟩, fun g hg => ?_⟩
  obtain ⟨g', hg', hhart, -⟩ := e.other hg
  exact ⟨g', hg', by rw [hhart]; exact ⟨rfl, .inl rfl⟩⟩

theorem mem_harts_ids {s : State} {dest : Nat} :
    dest ∈ s.harts.map (·.id) ↔
      s.hart.id = dest ∨ s.others.any (fun g => decide (g.id = dest)) = true := by
  simp [State.harts, @eq_comm _ dest s.hart.id]

/-- Settles O37: what a take and a send do, and that no other turn changes what is pending. -/
theorem ipiIsTakenAfterItWasSent : Obligations.IpiIsTakenAfterItWasSent := by
  refine ⟨fun s t pc m e => ?_, fun s pc m hnone => ?_, fun s dest h => ?_, fun s dest h => ?_,
    fun s t e => ?_⟩
  · obtain ⟨hpending, rfl⟩ := envTakeIpi_ok e
    exact ⟨hpending, rfl, rfl, fun _ => rfl⟩
  · exact if_neg (by simpa using hnone)
  · exact if_pos (mem_harts_ids.mp h)
  · exact if_neg (mem_harts_ids.not.mp h)
  · cases hagenda : s.agenda with
    | nil => exact (step_instr (.inl hagenda) e).2
    | cons turn rest =>
      cases turn with
      | instr id => exact (step_instr (.inr ⟨id, rest, hagenda⟩) e).2
      | env id a =>
        obtain ⟨u, -, hid, hipis, hact⟩ := step_env hagenda e
        have hpending := envAct_ipis hact
        simp only [tick_ipis, hipis, tick_hart_id, hid] at hpending
        rw [hpending]
        cases a <;> rfl

/-! The state after launch (10_state.md section 8). -/

/-- Settles O43: every hart is at launch, with its own initial observations. -/
theorem launchState : Obligations.LaunchState := by
  intro p m obs first rest h hh
  have hlaunch : ∃ id, h = Hart.launch p m (obs id) id := by
    rcases List.mem_cons.mp hh with rfl | hh
    · exact ⟨first, rfl⟩
    · obtain ⟨id, -, rfl⟩ := List.mem_map.mp hh
      exact ⟨id, rfl⟩
  obtain ⟨id, rfl⟩ := hlaunch
  refine ⟨rfl, rfl, rfl, rfl, rfl, rfl, rfl, rfl, fun r => ?_, rfl⟩
  simp [Hart.getX, Hart.launch, trunc, lowBits]

/-- Settles O49: the one state, evaluated. -/
theorem resetMeetsTheInvariants : Obligations.ResetMeetsTheInvariants := by
  unfold Obligations.ResetMeetsTheInvariants
  decide

end Sys2Proof.Machine

/-! PROOF. `satp` as a word and as a record (10_state.md section 4). -/

namespace Sys2Proof.Machine

theorem satpWord_rv64_toNat (v : Satp) : (satpWord .rv64 v).toNat =
    v.mode % 2 ^ 4 * 2 ^ 60 + v.asid.toNat % 2 ^ 16 * 2 ^ 44 + v.root.toNat % 2 ^ 44 := by
  rw [satpWord, BitVec.toNat_ofNat]
  omega

theorem satpWord_rv32_toNat (v : Satp) : (satpWord .rv32 v).toNat =
    v.mode % 2 * 2 ^ 31 + v.asid.toNat % 2 ^ 9 * 2 ^ 22 + v.root.toNat % 2 ^ 22 := by
  rw [satpWord, BitVec.toNat_ofNat]
  omega

/-- Records with equal fields, the addresses compared as numbers. -/
theorem Satp.eq_of_fields {v v' : Satp} (hmode : v.mode = v'.mode)
    (hasid : v.asid.toNat = v'.asid.toNat) (hroot : v.root.toNat = v'.root.toNat) : v = v' := by
  cases v
  cases v'
  simp only [Satp.mk.injEq]
  exact ⟨hmode, BitVec.eq_of_toNat_eq hasid, BitVec.eq_of_toNat_eq hroot⟩

/-- A word with its fields one after another is the sum of the fields, each at its place. -/
theorem append_append_toNat {l m n : Nat} (a : BitVec l) (b : BitVec m) (c : BitVec n) :
    (a ++ b ++ c).toNat = a.toNat * 2 ^ (m + n) + b.toNat * 2 ^ n + c.toNat := by
  rw [BitVec.toNat_append, BitVec.toNat_append, ← Nat.shiftLeft_add_eq_or_of_lt c.isLt,
    ← Nat.shiftLeft_add_eq_or_of_lt b.isLt, Nat.shiftLeft_eq, Nat.shiftLeft_eq, Nat.add_mul,
    Nat.mul_assoc, ← Nat.pow_add]

/-- Settles O33: both directions are arithmetic on the fields. -/
theorem satpWordRoundTrip : Obligations.SatpWordRoundTrip := by
  refine ⟨fun w => ⟨?_, fun hw => ?_⟩, fun v => ⟨fun hmode hasid hroot => ?_,
    fun hmode hasid hroot => ?_⟩, fun mode asid ppn => ?_, fun mode asid ppn => ?_⟩
  · have := w.isLt
    apply BitVec.eq_of_toNat_eq
    rw [satpWord_rv64_toNat]
    simp only [satpOfWord, BitVec.toNat_ofNat]
    omega
  · apply BitVec.eq_of_toNat_eq
    rw [satpWord_rv32_toNat]
    simp only [satpOfWord, BitVec.toNat_ofNat]
    omega
  · apply Satp.eq_of_fields <;>
      simp only [satpOfWord, satpWord_rv64_toNat, BitVec.toNat_ofNat] <;> omega
  · apply Satp.eq_of_fields <;>
      simp only [satpOfWord, satpWord_rv32_toNat, BitVec.toNat_ofNat] <;> omega
  · apply BitVec.eq_of_toNat_eq
    have h := append_append_toNat mode asid ppn
    have := mode.isLt
    have := asid.isLt
    have := ppn.isLt
    rw [satpWord_rv64_toNat]
    simp only [BitVec.toNat_setWidth]
    omega
  · apply BitVec.eq_of_toNat_eq
    have h := append_append_toNat mode asid ppn
    have := mode.isLt
    have := asid.isLt
    have := ppn.isLt
    rw [satpWord_rv32_toNat]
    simp only [BitVec.toNat_setWidth]
    omega

end Sys2Proof.Machine
